-- ==== Sys2Proof/Word.lean ====
section
/-! DEFINITION. The word types of the core (00_scope.md rules R4, R6). Their arithmetic is that of bit vectors: `+` and `*`
modulo 2^64 (R60, R61), `^^^` (R62), `>>>` the logical shift (R63). -/

namespace Sys2Proof

/-- A byte (`u8`, R4 "byte size"). -/
abbrev Byte := BitVec 8

/-- A 64-bit word (`u64`): an accumulator, a block word, the length counter. -/
abbrev Word := BitVec 64

/-- A seed (`u32`, R12). -/
abbrev Seed := BitVec 32

/-- A command word `CW[7:0]` (30_encoding.md rule R45). -/
abbrev CommandWord := BitVec 8

/-- A data operand `DIN[127:0]`, and the digest output `DOUT[127:0]` (R45, 10_state.md rule R18). -/
abbrev Operand := BitVec 128

end Sys2Proof
end

