-- ==== Sys2Proof/Syntax.lean ====
section
/-! DEFINITION. The commands of the core, one constructor per row of the opcode table (30_encoding.md rule R50), what a host
puts on the port (R45), and the spec's pseudo-instructions and assembler lines (R54, R55). -/

namespace Sys2Proof

/-- A decoded command. `update` carries the byte count `nb` as the field `CW[6:2]` gives it, 0 to 31 (R48), and the whole
data operand; INIT and FINAL have no operands, their `DIN` is ignored (R49). -/
inductive Instr where
  | init
  | update (nb : Nat) (din : Operand)
  | final
deriving DecidableEq, Repr

/-- One command transaction as it stands on the port: the command word and the data operand (R45). -/
structure Command where
  cw  : CommandWord
  din : Operand
deriving DecidableEq, Repr

/-- What a host may do to the core between two commands: send a command, or the reset event `RESET(seed)`
(70_reset_and_hazards.md rules R130, R133). -/
inductive HostEvent where
  | command (c : Command)
  | reset (seed : Seed)
deriving DecidableEq, Repr

/-- The pseudo-instructions of rule R55. -/
inductive Pseudo where
  | nop
  | updatel (bytes : List Byte)
  | hash (bytes : List Byte)
deriving DecidableEq, Repr

/-- One line of the assembler syntax of rule R54. -/
inductive AsmLine where
  | init
  | update (nb : Nat) (bytes : List Byte)
  | final
  | cw (w : CommandWord)
  | reset (seed : Seed)
deriving DecidableEq, Repr

end Sys2Proof
end

