-- ==== Sys2Proof/WellFormed.lean ====
section
/-! DEFINITION. Which decoded commands and assembler lines are well formed, as Booleans that decide. -/

namespace Sys2Proof

/-- A decoded command is well formed when its byte count fits the 5-bit field `nb` (30_encoding.md rules R46, R48). A count
of 17 to 31 is well formed: it decodes as UPDATE and is then rejected with E_COUNT (R50). -/
def Instr.wf : Instr → Bool
  | .init => true
  | .update nb _ => decide (nb < 32)
  | .final => true

/-- Rule R54: the byte count of an `UPDATE` line fits the field, and the number of bytes written equals it, "except that a
line written to show a rejected count (nb of 17 or more) gives no bytes". -/
def AsmLine.wf : AsmLine → Bool
  | .init => true
  | .update nb bytes => decide (nb < 32) && decide (bytes.length = if nb ≤ 16 then nb else 0)
  | .final => true
  | .cw _ => true
  | .reset _ => true

end Sys2Proof
end

