-- ==== Sys2Proof/Decode.lean ====
section
/-! DEFINITION. Command encoding: the fields of format C, the total decoder with its named rejections, the opcode table, the
encoder, and the expansion of pseudo-instructions and assembler lines (30_encoding.md). -/

namespace Sys2Proof

/-- `op = CW[1:0]` (R46). -/
def Command.op (c : Command) : BitVec 2 := c.cw.extractLsb' 0 2

/-- `nb = CW[6:2]` as an unsigned number, not scaled, not biased (R46, R48). -/
def Command.nb (c : Command) : Nat := (c.cw.extractLsb' 2 5).toNat

/-- `rsv = CW[7]` (R46). -/
def Command.rsv (c : Command) : Bool := c.cw.getLsbD 7

/-- Why a command word is reserved, the three cases of rule R51 in order. -/
inductive Reserved where
  | rsvSet
  | opZero
  | countNotZero
deriving DecidableEq, Repr

/-- What decoding answers: a command, or a reserved word by the name of its reason. -/
inductive Decoded where
  | instr (i : Instr)
  | reserved (r : Reserved)
deriving DecidableEq, Repr

/-- Decoding, total on the 256 command words (R50, R51; the order of 60_exceptions.md rule R115). The data operand is kept for
UPDATE and dropped for INIT and FINAL, which ignore it (R49, D28). -/
def decode (c : Command) : Decoded :=
  if c.rsv then .reserved .rsvSet
  else if c.op = 0b00#2 then .reserved .opZero
  else if c.op = 0b10#2 then .instr (.update c.nb c.din)
  else if c.nb ≠ 0 then .reserved .countNotZero
  else if c.op = 0b01#2 then .instr .init
  else .instr .final

/-- The instruction a decoding gives, none for a reserved word. -/
def Decoded.toOption : Decoded → Option Instr
  | .instr i => some i
  | .reserved _ => none

/-- The transaction whose bits are `w` when they are numbered as the opcode table numbers them: the command word is the first
byte, and lane `i` of the data operand is byte `i + 1` (lane order: 20_memory.md rule R34). Bits from `nbits` up are zero.
DESIGN CHOICE (log entry 12). -/
def Command.ofTableWord (nbits w : Nat) : Command :=
  { cw := BitVec.ofNat 8 (w % 2 ^ nbits), din := BitVec.ofNat 128 (w % 2 ^ nbits / 256) }

/-- The instruction the decoder reads from the transaction whose bits are `w`. -/
def decodeTableWord (nbits w : Nat) : Option Instr := (decode (Command.ofTableWord nbits w)).toOption

/-- A row of the opcode table (R50). -/
structure OpcodeRow where
  mnemonic  : String
  wordMatch : CommandWord
  wordMask  : CommandWord
deriving DecidableEq, Repr

/-- The three rows of rule R50. -/
def opcodeTable : List OpcodeRow :=
  [{ mnemonic := "INIT", wordMatch := 0x01#8, wordMask := 0xFF#8 },
   { mnemonic := "UPDATE", wordMatch := 0x02#8, wordMask := 0x83#8 },
   { mnemonic := "FINAL", wordMatch := 0x03#8, wordMask := 0xFF#8 }]

/-- A word matches a row when `CW AND mask = match` (R50). -/
def OpcodeRow.accepts (r : OpcodeRow) (w : CommandWord) : Bool := decide (w &&& r.wordMask = r.wordMatch)

/-- The mnemonic of a command in the opcode table. -/
def Instr.mnemonic : Instr → String
  | .init => "INIT"
  | .update _ _ => "UPDATE"
  | .final => "FINAL"

/-- The transaction of a well-formed command (R50): `0x01`, `0x02 + 4*nb`, `0x03`. INIT and FINAL are given a zero data
operand, which nothing reads. -/
def encode : Instr → Command
  | .init => { cw := 0x01#8, din := 0 }
  | .update nb din => { cw := BitVec.ofNat 8 (0x02 + 4 * nb), din := din }
  | .final => { cw := 0x03#8, din := 0 }

/-- The data operand with byte `i` of the string in lane `i` (20_memory.md rule R34) and zero in every lane beyond it, as rule
R54 writes it. Bytes beyond lane 15 have no lane and drop out. -/
def packLanes : List Byte → Operand
  | [] => 0
  | b :: bs => b.setWidth 128 ||| (packLanes bs <<< 8)

/-- The UPDATE command that carries a byte string of at most 16 bytes. -/
def updateOf (bytes : List Byte) : Instr := .update bytes.length (packLanes bytes)

/-- The `floor(m/16)` full beats of `UPDATEL`, then the short one when `m mod 16` is not zero (R55). -/
def updatelExpansion (bytes : List Byte) : List Instr :=
  (List.range (bytes.length / 16)).map (fun j => updateOf ((bytes.drop (16 * j)).take 16)) ++
    (if bytes.length % 16 = 0 then [] else [updateOf (bytes.drop (16 * (bytes.length / 16)))])

/-- The expansion of a pseudo-instruction (R55). -/
def Pseudo.expand : Pseudo → List Instr
  | .nop => [.update 0 0]
  | .updatel bytes => updatelExpansion bytes
  | .hash bytes => .init :: (updatelExpansion bytes ++ [.final])

/-- The host event an assembler line stands for (R54). `.cw` gives a raw word with `DIN` all zero; unlisted lanes are zero. -/
def AsmLine.event : AsmLine → HostEvent
  | .init => .command (encode .init)
  | .update nb bytes => .command (encode (.update nb (packLanes bytes)))
  | .final => .command (encode .final)
  | .cw w => .command { cw := w, din := 0 }
  | .reset seed => .reset seed

end Sys2Proof
end

