-- ==== Sys2Proof/Machine/Datapath.lean ====
section
/-! DEFINITION. The pure functions of 40_datapath_functions.md, total on bit vectors of width 64, none of which reads or writes
state. -/

namespace Sys2Proof.Machine

/-- The first key multiplier (R65). -/
def constC1 : Word := 0x87c37b91114253d5#64

/-- The second key multiplier (R65). -/
def constC2 : Word := 0x4cf5ad432745937f#64

/-- The round constant of the H1 line, 32 bits zero-extended (R65). -/
def constN1 : Word := (0x52dce729#32).setWidth 64

/-- The round constant of the H2 line, 32 bits zero-extended (R65). -/
def constN2 : Word := (0x38495ab5#32).setWidth 64

/-- The first multiplier of `fmix64` (R65). -/
def constF1 : Word := 0xff51afd7ed558ccd#64

/-- The second multiplier of `fmix64` (R65). -/
def constF2 : Word := 0xc4ceb9fe1a85ec53#64

/-- Left rotation (R64), given only for amounts 1 to 63: the formula "is not to be evaluated at n = 0 or n = 64", so a call
carries the proof that its amount is in range. -/
def rotl64 (x : Word) (n : Nat) (_ : 1 ≤ n ∧ n ≤ 63 := by decide) : Word := (x <<< n) ||| (x >>> (64 - n))

/-- Seed widening (R66): zero bits on top. -/
def seedWord (s : Seed) : Word := s.setWidth 64

/-- The sum over `i` of `b[i] << (8*(i + k))`: `le` of the string with its first byte at byte position `k`. -/
def leFrom (k : Nat) : List Byte → Word
  | [] => 0
  | b :: bs => (b.setWidth 64 <<< (8 * k)) + leFrom (k + 1) bs

/-- Byte assembly (R67): the sum over `i` of `b[i] << (8*i)`, zero for the empty string. -/
def le (bytes : List Byte) : Word := leFrom 0 bytes

/-- The eight bytes of a word, least significant first (00_scope.md rule R6). -/
def le64 (v : Word) : List Byte := (List.range 8).map fun i => v.extractLsb' (8 * i) 8

/-- R68. -/
def mixk1 (k : Word) : Word := rotl64 (k * constC1) 31 * constC2

/-- R69. -/
def mixk2 (k : Word) : Word := rotl64 (k * constC2) 33 * constC1

/-- The block-mixing step (R70, conflict C1): the first line reads the old `h2`, the second the new `h1'`. -/
def blockmix (h1 h2 k1 k2 : Word) : Word × Word :=
  let a := h1 ^^^ mixk1 k1
  let h1' := (rotl64 a 27 + h2) * 5 + constN1
  let b := h2 ^^^ mixk2 k2
  let h2' := (rotl64 b 31 + h1') * 5 + constN2
  (h1', h2')

/-- The two words of a tail (R71, conflict C2): offsets 0 to 7 in the first, 8 to 14 in the second, missing bytes zero. -/
def tailwords (t : List Byte) : Word × Word := (le (t.take 8), le (t.drop 8))

/-- The tail step (R72), H2 before H1; the identity for the empty tail (D30). -/
def tailmix (h1 h2 : Word) (t : List Byte) : Word × Word :=
  let k := tailwords t
  let h2' := h2 ^^^ mixk2 k.2
  let h1' := h1 ^^^ mixk1 k.1
  (h1', h2')

/-- The avalanche mix (R73). -/
def fmix64 (x : Word) : Word :=
  let s1 := x ^^^ (x >>> 33)
  let m1 := s1 * constF1
  let s2 := m1 ^^^ (m1 >>> 33)
  let m2 := s2 * constF2
  m2 ^^^ (m2 >>> 33)

/-- The finalization after the tail step (R74); each cross-add is sequential. -/
def finalmix (h1 h2 len : Word) : Word × Word :=
  let a1 := h1 ^^^ len
  let a2 := h2 ^^^ len
  let b1 := a1 + a2
  let b2 := a2 + b1
  let c1 := fmix64 b1
  let c2 := fmix64 b2
  let d1 := c1 + c2
  let d2 := c2 + d1
  (d1, d2)

/-- The 16 digest bytes (R75): `LE64(h1) || LE64(h2)`. -/
def digest (h1 h2 : Word) : List Byte := le64 h1 ++ le64 h2

/-- One block of a message mixed into the accumulators: block `j` is `msg[16j] .. msg[16j+15]` (20_memory.md R32, R33). -/
def mixBlockOf (msg : List Byte) (h : Word × Word) (j : Nat) : Word × Word :=
  blockmix h.1 h.2 (le ((msg.drop (16 * j)).take 8)) (le ((msg.drop (16 * j + 8)).take 8))

/-- The accumulators after the `floor(n/16)` whole blocks of a message, from the widened seed (R77, 10_state.md R20 item 3). -/
def mixBlocks (s : Seed) (msg : List Byte) : Word × Word :=
  (List.range (msg.length / 16)).foldl (mixBlockOf msg) (seedWord s, seedWord s)

/-- The tail of a message: its last `n mod 16` bytes (20_memory.md R32). -/
def tailOf (msg : List Byte) : List Byte := msg.drop (msg.length - msg.length % 16)

/-- The whole hash `H(s, msg)` as one function (R77); the length enters modulo 2^64. -/
def hashMessage (s : Seed) (msg : List Byte) : List Byte :=
  let h := mixBlocks s msg
  let t := tailmix h.1 h.2 (tailOf msg)
  let f := finalmix t.1 t.2 (BitVec.ofNat 64 msg.length)
  digest f.1 f.2

end Sys2Proof.Machine
end

