-- ==== Sys2Proof/Machine/Operands.lean ====
section
/-! DEFINITION. The operand forms: the byte lanes of the data operand and the byte string of an UPDATE (20_memory.md rule R34,
30_encoding.md rules R48, R49). -/

namespace Sys2Proof.Machine

/-- Lane `i` of the data operand: `DIN[8i+7:8i]` (R34). -/
def lane (din : Operand) (i : Nat) : Byte := din.extractLsb' (8 * i) 8

/-- The byte string of an UPDATE: lane 0, lane 1, ..., lane `nb-1` (R34). Lanes from `nb` up are not read. -/
def operandBytes (din : Operand) (nb : Nat) : List Byte := (List.range nb).map (lane din)

/-- The largest byte count an UPDATE may carry (00_scope.md rule R4). -/
def maxCount : Nat := 16

end Sys2Proof.Machine
end

