-- ==== Sys2Proof/Config.lean ====
section
/-! DEFINITION. What is fixed outside the core: the default of the reset argument, and the one value the spec leaves free. -/

namespace Sys2Proof

/-- The seed a platform that supplies none gives to the reset event (00_scope.md rule R4, `SEED_RESET`: "default 0"). -/
def Config.seedDefault : Seed := 0

/-- What `DOUT` shows outside phase DONE: a free draw under no law (10_state.md rule R18, 93 U11, D20). It has no body, so no
proof can know a value of it, and a claim about it holds whatever it is. It is applied to the plain counter
`State.port.draws`. DESIGN CHOICE (log entry 5); safe. That one function serves every core and every run, so that equal counters
give equal values, is a DESIGN CHOICE too (log entry 18); unsafe. -/
opaque Config.freeDout : Nat → Operand

end Sys2Proof
end

