-- ==== Sys2Proof/Machine/State.lean ====
section
/-! DEFINITION. The state of the core as plain data (`CoreState`, exactly the eight items of 10_state.md rule R10, with no field
for anything R24 names as no state), and the host's side of the command port (`Port`). `State` puts the two together, because
the host's interface steps one type without an input (log entry 1). -/

namespace Sys2Proof.Machine

/-- The lifecycle phase (R15). Code `0b11` is never held, so it is not representable (93 U17). -/
inductive Phase where
  | uninit
  | ready
  | done
deriving DecidableEq, Repr

/-- The four causes of a rejected command (60_exceptions.md rule R110). -/
inductive Cause where
  | illegal
  | count
  | uninit
  | finalized
deriving DecidableEq, Repr

/-- The response of a command (00_scope.md rule R5; 30_encoding.md rule R53). -/
inductive Response where
  | ok
  | okDigest (digest : List Byte)
  | err (c : Cause)
deriving DecidableEq, Repr

/-- The carry buffer's cells as (index, byte) pairs in one canonical form: indexes strictly rising, all below 16, no pair equal
to what an unlisted cell reads as (`Memory.wf` in Machine/Ops.lean). -/
abbrev Memory := List Host.Cell

/-- The complete state of the core: the eight items of R10 and no other. No field holds a constant, SEED_RESET, the command
stream, the message or a response (R24). `err` is ERR; `ecause` is ECAUSE, `none` for code 0 (R16, R110; log entry 11). -/
structure CoreState where
  seed   : Seed
  h1     : Word
  h2     : Word
  len    : Word
  carry  : Memory
  phase  : Phase
  err    : Bool
  ecause : Option Cause
deriving DecidableEq, Repr

/-- The host's side of the command port, NO state of the core (R24: the command stream belongs to the host, and a response is
an output of the step). It is the MODEL's own (log entry 1): the host events not yet presented, earliest first; the response
of the latest command, none before the first one and after a reset; and a counter of the events taken, which tells one free
draw of `DOUT` from the next (log entry 5). No command's meaning is given it (`runInit`, `runUpdate`, `runFinal`). -/
structure Port where
  pending  : List HostEvent
  response : Option Response
  draws    : Nat
deriving DecidableEq, Repr

/-- The core together with the host's side of its port: what the host's interface calls the machine's state. -/
structure State extends CoreState where
  port : Port
deriving DecidableEq, Repr

/-- Why the machine stops with a fault: never. The spec gives the core no way to stop ("no state in which the core stops
accepting commands", R119; every misuse is a rejected command, R110, after which it goes on), so the type has no constructor. -/
inductive Fault
deriving DecidableEq, Repr

/-- Why an instruction has no meaning here. -/
inductive Refusal where
  /-- Raised by an arm of `exec` whose instruction has no meaning in the model. Safe: the machine stops. No arm does so. -/
  | notModelled (mnemonic : String)
deriving DecidableEq, Repr

/-- The core right after `RESET(seed)` (10_state.md rule R22, 70 R131). H1, H2, LEN and the carry cells are unspecified there
and hold zero here: DESIGN CHOICE (log entry 3), unsafe; no rule reads them before INIT writes H1, H2 and LEN. -/
def CoreState.reset (seed : Seed) : CoreState :=
  { seed := seed, h1 := 0, h2 := 0, len := 0, carry := [], phase := .uninit, err := false, ecause := none }

/-- The machine right after reset with the default seed, no host event pending (log entries 1, 5). -/
def State.reset : State :=
  { toCoreState := CoreState.reset Config.seedDefault, port := { pending := [], response := none, draws := 0 } }

end Sys2Proof.Machine
end

