-- ==== Sys2Proof/Machine/Flags.lean ====
section
/-! DEFINITION. Codes, the error record, the checks a command makes, and the two views the host may read. -/

namespace Sys2Proof.Machine

/-- The 2-bit code of a phase (10_state.md rule R15). -/
def Phase.code : Phase → BitVec 2
  | .uninit => 0b00#2
  | .ready => 0b01#2
  | .done => 0b10#2

/-- The 3-bit code of a cause (60_exceptions.md rule R110). -/
def Cause.code : Cause → BitVec 3
  | .illegal => 1#3
  | .count => 2#3
  | .uninit => 3#3
  | .finalized => 4#3

/-- The response code `RC[2:0]`: 0 when the command is accepted, the cause code when it is rejected (30_encoding.md R53). -/
def Response.rc : Response → BitVec 3
  | .ok => 0#3
  | .okDigest _ => 0#3
  | .err c => c.code

/-- ECAUSE as its 3-bit field (10_state.md rule R16). -/
def CoreState.ecauseCode (s : CoreState) : BitVec 3 :=
  match s.ecause with
  | none => 0#3
  | some c => c.code

/-- The error record (60 R116): the first rejected command since reset sets ERR and writes ECAUSE, later ones change neither. -/
def recordCause (c : Cause) (s : CoreState) : CoreState :=
  if s.err then s else { s with err := true, ecause := some c }

/-- The operand check of UPDATE (60 R112): a byte count above 16. -/
def countCause (nb : Nat) : Option Cause := if maxCount < nb then some .count else none

/-- The phase check of UPDATE and FINAL (60 R113, R114). -/
def phaseCause : Phase → Option Cause
  | .uninit => some .uninit
  | .ready => none
  | .done => some .finalized

/-- `STATUS[7:0]` (10_state.md rule R17): bits 1:0 PHASE, bit 2 ERR, bits 5:3 ECAUSE, bits 7:6 zero. -/
def CoreState.status (s : CoreState) : BitVec 8 :=
  0#2 ++ s.ecauseCode ++ BitVec.ofBool s.err ++ s.phase.code

/-- `DOUT[127:0]` (R18): in phase DONE, H1 in bits 63:0 and H2 in bits 127:64; elsewhere a free value, which stays the same
while no command or reset intervenes (20_memory.md rule R40) and does not depend on the accumulators (log entry 5).
Two states outside DONE with equal `port.draws`, of two cores or of two runs, show the same value: DESIGN CHOICE (log entry
18), unsafe; R18 and R124 leave open how such draws relate. -/
def State.dout (s : State) : Operand :=
  match s.phase with
  | .done => s.h2 ++ s.h1
  | .uninit => Config.freeDout s.port.draws
  | .ready => Config.freeDout s.port.draws

end Sys2Proof.Machine
end

