-- ==== Sys2Proof/Machine/Ops.lean ====
section
/-! DEFINITION. The named operations over the carry buffer, the registers and the port: reading and writing cells, absorbing a
byte, rejecting a command (the one exception entry), answering, the reset event, and taking an event off the port. -/

namespace Sys2Proof.Machine

/-- What a carry cell that nothing has written reads as. DESIGN CHOICE (log entry 4), unsafe; no rule reads such a cell. -/
def blankByte : Byte := 0

/-- The byte in one cell. -/
def Memory.read : Memory → Nat → Byte
  | [], _ => blankByte
  | (k, b) :: m, a => if k = a then b else Memory.read m a

/-- Put a pair before the first larger index. -/
def Memory.insertCell : Memory → Nat → Byte → Memory
  | [], a, v => [(a, v)]
  | (k, b) :: m, a, v => if a < k then (a, v) :: (k, b) :: m else (k, b) :: Memory.insertCell m a v

/-- Write one cell, keeping the canonical form: the old pair goes, and a byte equal to the blank one is not listed. -/
def Memory.write (m : Memory) (a : Nat) (v : Byte) : Memory :=
  let rest := m.filter fun c => c.1 != a
  if v = blankByte then rest else Memory.insertCell rest a v

/-- The canonical form: indexes strictly rising, each a carry cell (below 16), no pair that an unlisted cell reads as. -/
def Memory.wf (m : Memory) : Bool :=
  decide (m.Pairwise fun c d => c.1 < d.1) && m.all fun c => decide (c.1 < 16) && decide (c.2 ≠ blankByte)

/-- The fill level `CNT = LEN[3:0]` (10_state.md rule R14, D8). -/
def CoreState.cnt (s : CoreState) : Nat := (s.len.extractLsb' 0 4).toNat

/-- The fill level is a carry cell's index. -/
theorem CoreState.cnt_lt (s : CoreState) : s.cnt < 16 := (s.len.extractLsb' 0 4).isLt

/-- `CARRY[a]`. -/
def CoreState.cell (s : CoreState) (a : Nat) : Byte := Memory.read s.carry a

/-- The bytes of the cells `a` to `a + n - 1`, in order. -/
def CoreState.cells (s : CoreState) (a n : Nat) : List Byte := (List.range n).map fun i => s.cell (a + i)

/-- The pending bytes `CARRY[0..CNT-1]` (R14). -/
def CoreState.pendingBytes (s : CoreState) : List Byte := s.cells 0 s.cnt

/-- `MemRead(addr, n)` (00_scope.md rule R7). It is defined only for `n <= 8` and `addr + n <= 16`, so a call carries the
proof that it is. -/
def CoreState.memRead (s : CoreState) (addr n : Nat) (_ : n ≤ 8 ∧ addr + n ≤ 16) : Word := le (s.cells addr n)

/-- `MemWrite(addr, 1, v)` (R7), to a cell that exists. -/
def CoreState.memWrite (s : CoreState) (addr : Nat) (v : Byte) (_ : addr < 16) : CoreState :=
  { s with carry := Memory.write s.carry addr v }

/-- Write both accumulators. -/
def setHash (h : Word × Word) (s : CoreState) : CoreState := { s with h1 := h.1, h2 := h.2 }

/-- Write the length counter, and with it the fill level. -/
def setLen (n : Word) (s : CoreState) : CoreState := { s with len := n }

/-- Write the phase. -/
def setPhase (p : Phase) (s : CoreState) : CoreState := { s with phase := p }

/-- Mix the 16 bytes of the carry buffer as one block (42_cmd_update.md rule R86, 20_memory.md rule R33). -/
def mixCarry (s : CoreState) : CoreState :=
  setHash (blockmix s.h1 s.h2 (s.memRead 0 8 (by decide)) (s.memRead 8 8 (by decide))) s

/-- The first half of `absorb`: the byte into cell CNT, and the length counter up by one, modulo 2^64 (R86, R90). -/
def storeByte (s : CoreState) (b : Byte) : CoreState := setLen (s.len + 1) (s.memWrite s.cnt b s.cnt_lt)

/-- `absorb(b)`, the effect of one message byte (R86); the block is mixed when its 16th byte has just arrived. -/
def absorb (s : CoreState) (b : Byte) : CoreState :=
  if s.cnt = 15 then mixCarry (storeByte s b) else storeByte s b

/-- Absorb a byte string in order (42_cmd_update.md rule R85). -/
def absorbAll (s : CoreState) (bytes : List Byte) : CoreState := bytes.foldl absorb s

/-- Exception entry (60_exceptions.md rule R116): the command is rejected with cause `c`. The error record is written if it is
the first, the response is ERR(c), and nothing else changes: no handler, no saved context, and nothing to return from (R118). -/
def raiseCause (c : Cause) (s : CoreState) : CoreState × Response := (recordCause c s, .err c)

/-- Put the outcome of a command, the core's next state and the response (00_scope.md rule R5, 30_encoding.md rule R53), in place
of the core and of the latest response. What the host has yet to send stays. -/
def answer (r : CoreState × Response) (s : State) : State :=
  { toCoreState := r.1, port := { s.port with response := some r.2 } }

/-- The reset event `RESET(seed)` (70_reset_and_hazards.md rules R130, R131). What the host has yet to send and the count of
events taken are not the core's and stay; a reset has no response (log entry 7). -/
def applyReset (seed : Seed) (s : State) : State :=
  { toCoreState := CoreState.reset seed, port := { s.port with response := none } }

/-- The state with its first pending event taken off the port. -/
def takeEvent (rest : List HostEvent) (s : State) : State :=
  { s with port := { s.port with pending := rest, draws := s.port.draws + 1 } }

/-- Take the next host event off the port, if there is one (20_memory.md rule R42: one at a time, in the host's order). -/
def fetch (s : State) : Option (HostEvent × State) :=
  match s.port.pending with
  | [] => none
  | e :: rest => some (e, takeEvent rest s)

/-- Present an event before every other one. -/
def presentFirst (e : HostEvent) (s : State) : State :=
  { s with port := { s.port with pending := e :: s.port.pending } }

end Sys2Proof.Machine
end

