-- ==== Sys2Proof/Machine/FinalCmd.lean ====
section
/-! DEFINITION. The meaning of FINAL (43_cmd_final.md). -/

namespace Sys2Proof.Machine

/-- `MemRead(0, min(r, 8))`, the first tail word (R95, R96). -/
def tailWord1 (s : CoreState) : Word := s.memRead 0 (min s.cnt 8) (by omega)

/-- `MemRead(8, max(r - 8, 0))`, the second tail word (R95, R96). -/
def tailWord2 (s : CoreState) : Word := s.memRead 8 (s.cnt - 8) (by have := s.cnt_lt; omega)

/-- The accumulators after steps 1 to 5 of FINAL (R95): the tail step with H2 before H1, then `finalmix` with the whole LEN
(R97). -/
def finalHash (s : CoreState) : Word × Word :=
  let k1 := tailWord1 s
  let k2 := tailWord2 s
  let h2 := s.h2 ^^^ mixk2 k2
  let h1 := s.h1 ^^^ mixk1 k1
  finalmix h1 h2 s.len

/-- FINAL in phase READY (R95): the accumulators written, PHASE to DONE, and the digest answered (step 6). LEN, CARRY and SEED
stay (R99). -/
def finalize (s : CoreState) : CoreState × Response :=
  (setPhase .done (setHash (finalHash s) s), .okDigest (digest (finalHash s).1 (finalHash s).2))

/-- FINAL as a function of the core (R95): the phase check, then the finalization. -/
def runFinal (s : CoreState) : CoreState × Response :=
  match phaseCause s.phase with
  | some c => raiseCause c s
  | none => finalize s

/-- FINAL. -/
def execFinal (s : State) : Host.Outcome State Fault Refusal := .next (answer (runFinal s.toCoreState) s)

end Sys2Proof.Machine
end

