-- ==== Sys2Proof/Machine/InitCmd.lean ====
section
/-! DEFINITION. The meaning of INIT (41_cmd_init.md). -/

namespace Sys2Proof.Machine

/-- INIT as a function of the core (R80), accepted in every phase (R81). The carry cells are not written; the buffer is empty
because `LEN <- 0` makes `CNT = 0`. -/
def runInit (s : CoreState) : CoreState × Response :=
  (setPhase .ready (setLen 0 (setHash (seedWord s.seed, seedWord s.seed) s)), .ok)

/-- INIT. -/
def execInit (s : State) : Host.Outcome State Fault Refusal := .next (answer (runInit s.toCoreState) s)

end Sys2Proof.Machine
end

