-- ==== Sys2Proof/Machine/UpdateCmd.lean ====
section
/-! DEFINITION. The meaning of UPDATE (42_cmd_update.md). -/

namespace Sys2Proof.Machine

/-- UPDATE as a function of the core and its operands (R85): the checks in order (E_COUNT, then E_UNINIT or E_FINALIZED), then
each byte of lanes 0 to `nb-1` absorbed in ascending order. -/
def runUpdate (nb : Nat) (din : Operand) (s : CoreState) : CoreState × Response :=
  match countCause nb with
  | some c => raiseCause c s
  | none =>
    match phaseCause s.phase with
    | some c => raiseCause c s
    | none => (absorbAll s (operandBytes din nb), .ok)

/-- UPDATE. -/
def execUpdate (nb : Nat) (din : Operand) (s : State) : Host.Outcome State Fault Refusal :=
  .next (answer (runUpdate nb din s.toCoreState) s)

end Sys2Proof.Machine
end

