-- ==== Sys2Proof/Machine/Step.lean ====
section
/-! DEFINITION. One step of the machine: take the next host event and carry it out (00_scope.md rule R5, 70 R133). -/

namespace Sys2Proof.Machine

/-- One step. With nothing pending the core waits and nothing changes (log entry 2); a reset event is the reset transition
(R130); a command is decoded and executed, a reserved word rejected with E_ILLEGAL (30 R51, 60 R111, R115). -/
def step (s : State) : Host.Outcome State Fault Refusal :=
  match fetch s with
  | none => .next s
  | some (.reset seed, t) => .next (applyReset seed t)
  | some (.command c, t) =>
    match decode c with
    | .instr i => exec i t
    | .reserved _ => .next (answer (raiseCause .illegal t.toCoreState) t)

/-- `s` with the transaction whose bits are `w` presented before anything else the host has pending, so that the next step runs
it (log entry 1). -/
def State.withFetchWord (s : State) (nbits w : Nat) : State :=
  presentFirst (.command (Command.ofTableWord nbits w)) s

end Sys2Proof.Machine
end

