-- ==== Sys2Proof/Machine/Instances.lean ====
section
/-! DEFINITION. Several cores (60_exceptions.md rule R124): a model of `k` cores is the product of `k` models of one core, so a
list of states of which one takes a step. The free values of DOUT of all of them come from one function, `Config.freeDout`:
DESIGN CHOICE (log entry 18), unsafe. -/

namespace Sys2Proof.Machine

/-- Core `k` of several takes one step; the others share nothing with it. A number that names no core moves nothing. -/
def stepInstance (k : Nat) (cores : List State) : Host.Outcome (List State) Fault Refusal :=
  match cores[k]? with
  | none => .next cores
  | some s =>
    match step s with
    | .next t => .next (cores.set k t)
    | .fault f => .fault f
    | .refused r => .refused r

end Sys2Proof.Machine
end

