-- ==== Sys2Proof/Machine/Transition.lean ====
section
/-! DEFINITION. The transition of the core alone, in the shape 00_scope.md rule R5 gives it: a state and a command to a state and
a response. Nothing here sees the port (10_state.md rule R24). -/

namespace Sys2Proof.Machine

/-- One command carried out by the core: decoded, then run, or rejected with E_ILLEGAL when its word is reserved. -/
def coreStep (s : CoreState) (c : Command) : CoreState × Response :=
  match decode c with
  | .instr .init => runInit s
  | .instr (.update nb din) => runUpdate nb din s
  | .instr .final => runFinal s
  | .reserved _ => raiseCause .illegal s

end Sys2Proof.Machine
end

