-- ==== Sys2Proof/Safety.lean ====
section
/-! DEFINITION. The terms claims are made in: the machine's invariant, runs, which commands are accepted, what a rejected
command leaves, what it is to have absorbed a message, and what of a state a later command or the host can still observe. -/

namespace Sys2Proof.Machine

/-- The machine's invariant: the carry buffer is in canonical form, and the error record is consistent ("While `ERR = 0`,
`ECAUSE = 0`", 10_state.md rule R16). -/
abbrev State.Inv (s : State) : Prop := Memory.wf s.carry = true ∧ s.err = s.ecause.isSome

/-- `n` steps, stopping at the first fault or refusal. -/
def runSteps : Nat → State → Host.Outcome State Fault Refusal
  | 0, s => .next s
  | n + 1, s =>
    match step s with
    | .next t => runSteps n t
    | .fault f => .fault f
    | .refused r => .refused r

/-- Several cores stepped one at a time in the order given (60_exceptions.md rule R124). -/
def runInstances : List Nat → List State → Host.Outcome (List State) Fault Refusal
  | [], cores => .next cores
  | k :: ks, cores =>
    match stepInstance k cores with
    | .next r => runInstances ks r
    | .fault f => .fault f
    | .refused r => .refused r

/-- Decoded commands executed one after another. -/
def execList : List Instr → State → Host.Outcome State Fault Refusal
  | [], s => .next s
  | i :: is, s =>
    match exec i s with
    | .next t => execList is t
    | .fault f => .fault f
    | .refused r => .refused r

/-- The decision procedure of 60_exceptions.md rule R115 on a command word and a phase, from the word's bits: the cause
reported, or none when the command executes. -/
def causeOf (cw : CommandWord) (p : Phase) : Option Cause :=
  if cw.getLsbD 7 = true ∨ cw.extractLsb' 0 2 = 0b00#2 then some .illegal
  else if (cw.extractLsb' 0 2 = 0b01#2 ∨ cw.extractLsb' 0 2 = 0b11#2) ∧ cw.extractLsb' 2 5 ≠ 0#5 then some .illegal
  else if cw.extractLsb' 0 2 = 0b01#2 then none
  else if cw.extractLsb' 0 2 = 0b10#2 ∧ 16 < (cw.extractLsb' 2 5).toNat then some .count
  else if p = .uninit then some .uninit
  else if p = .done then some .finalized
  else none

/-- What a command rejected with cause `c` leaves (60 R116), written out: the error record if it is the first, the response,
and every other item as it was. -/
def rejected (c : Cause) (s : State) : State :=
  { s with
    err := true
    ecause := if s.err = true then s.ecause else some c
    port := { s.port with response := some (.err c) } }

/-- The byte string a command adds to the message in phase READY: that of an UPDATE with a legal count, else nothing. -/
def acceptedBytes (c : Command) : List Byte :=
  match decode c with
  | .instr .init => []
  | .instr (.update nb din) => if nb ≤ 16 then operandBytes din nb else []
  | .instr .final => []
  | .reserved _ => []

/-- The core is in phase READY and has absorbed exactly the message `msg` (10_state.md rule R20, items 1 to 3). -/
def Absorbed (msg : List Byte) (s : CoreState) : Prop :=
  s.phase = .ready ∧ s.len = BitVec.ofNat 64 msg.length ∧ s.cnt = msg.length % 16 ∧
    s.pendingBytes = tailOf msg ∧ (s.h1, s.h2) = mixBlocks s.seed msg

/-- What the host sees between two commands: STATUS, DOUT and the latest response (10_state.md rules R17, R18; 30 R53). -/
def observation (s : State) : BitVec 8 × Operand × Option Response := (s.status, s.dout, s.port.response)

/-- Two states agree in everything a later command or the host can read. The accumulators count in phases READY and DONE, the
length and the pending bytes in READY only, so the values a reset leaves unspecified (R22) and the carry cells at index
CNT and above (R14) do not count. -/
def SameLive (s t : State) : Prop :=
  s.seed = t.seed ∧ s.phase = t.phase ∧ s.err = t.err ∧ s.ecause = t.ecause ∧ s.port = t.port ∧
    (s.phase ≠ .uninit → s.h1 = t.h1 ∧ s.h2 = t.h2) ∧
    (s.phase = .ready → s.len = t.len ∧ s.pendingBytes = t.pendingBytes)

end Sys2Proof.Machine
end

