-- ==== Sys2Proof/Certificates/Slice0/Obligations.lean ====
section
/-! DEFINITION. The statements put to the provers, each from the numbered rules of spec/. -/

open Sys2Proof Sys2Proof.Machine

/-! ## Encoding -/

/-- Words written out bit by bit from the encoding of rules R46, R47, R50 and R51. -/
def Obligations.DecodesWordsWrittenFromTheEncoding : Prop :=
  ∀ din : Operand,
    decode ⟨0b00000001#8, din⟩ = .instr .init ∧
    decode ⟨0b00000010#8, din⟩ = .instr (.update 0 din) ∧
    decode ⟨0b01000010#8, din⟩ = .instr (.update 16 din) ∧
    decode ⟨0b01111110#8, din⟩ = .instr (.update 31 din) ∧
    decode ⟨0b00000011#8, din⟩ = .instr .final ∧
    decode ⟨0b00000000#8, din⟩ = .reserved .opZero ∧
    decode ⟨0b00000101#8, din⟩ = .reserved .countNotZero ∧
    decode ⟨0b10000010#8, din⟩ = .reserved .rsvSet

/-- Decoding the transaction of a well-formed command gives the command back, with every byte count of the field and every data
operand (R46, R48, R49, R50). -/
def Obligations.DecodeOfEncodeIsTheCommand : Prop :=
  ∀ i : Instr, i.wf = true → decode (encode i) = .instr i

/-- A decoded command is well formed, and its transaction is the one decoded, but for the data operand that INIT and FINAL
ignore (R46, R49, R50). -/
def Obligations.EncodeOfDecodeIsTheWord : Prop :=
  ∀ (c : Command) (i : Instr), decode c = .instr i →
    i.wf = true ∧ (encode i).cw = c.cw ∧ (∀ nb din, i = .update nb din → encode i = c)

/-- R50: the three rows by match and mask; every other word is reserved; the UPDATE words with a count above 16 decode as UPDATE
and are always rejected with E_COUNT. -/
def Obligations.DecodingFollowsTheOpcodeMap : Prop :=
  ∀ c : Command,
    (decode c = .instr .init ↔ c.cw &&& 0xFF#8 = 0x01#8) ∧
    ((∃ nb, decode c = .instr (.update nb c.din)) ↔ c.cw &&& 0x83#8 = 0x02#8) ∧
    (decode c = .instr .final ↔ c.cw &&& 0xFF#8 = 0x03#8) ∧
    ((∃ r, decode c = .reserved r) ↔
      ¬ (c.cw &&& 0xFF#8 = 0x01#8) ∧ ¬ (c.cw &&& 0x83#8 = 0x02#8) ∧ ¬ (c.cw &&& 0xFF#8 = 0x03#8)) ∧
    (∀ nb din, decode c = .instr (.update nb din) → nb ≤ 31 ∧ din = c.din ∧ c.cw = BitVec.ofNat 8 (0x02 + 4 * nb)) ∧
    (∀ nb din s, decode c = .instr (.update nb din) → 17 ≤ nb → exec (.update nb din) s = .next (rejected .count s))

/-- R51: which words are reserved, how many of each kind, and that a reserved word is rejected with E_ILLEGAL in every phase. -/
def Obligations.ReservedWordsAreRejected : Prop :=
  (∀ c : Command,
    (∃ r, decode c = .reserved r) ↔
      c.cw.getLsbD 7 = true ∨ c.cw.extractLsb' 0 2 = 0b00#2 ∨
        ((c.cw.extractLsb' 0 2 = 0b01#2 ∨ c.cw.extractLsb' 0 2 = 0b11#2) ∧ c.cw.extractLsb' 2 5 ≠ 0#5)) ∧
  ((List.range 256).filter fun n => decide (decode ⟨BitVec.ofNat 8 n, 0⟩ = .reserved .rsvSet)).length = 128 ∧
  ((List.range 256).filter fun n => decide (decode ⟨BitVec.ofNat 8 n, 0⟩ = .reserved .opZero)).length = 32 ∧
  ((List.range 256).filter fun n => decide (decode ⟨BitVec.ofNat 8 n, 0⟩ = .reserved .countNotZero)).length = 62 ∧
  ∀ (s : State) (c : Command) (r : Reserved) (rest : List HostEvent),
    s.port.pending = .command c :: rest → decode c = .reserved r →
      step s = .next (rejected .illegal (takeEvent rest s))

/-! ## The step and the host -/

/-- A step runs the decoded command: when the next host event is a command whose word decodes, the step is `exec` of it at the
state with that event taken off the port (R5, R42, R45; log entry 1). -/
def Obligations.StepRunsTheDecodedCommand : Prop :=
  ∀ (s : State) (c : Command) (i : Instr) (rest : List HostEvent),
    s.port.pending = .command c :: rest → decode c = .instr i →
      step s = exec i { s with port := { pending := rest, response := s.port.response, draws := s.port.draws + 1 } }

/-- A step is the transition of the core alone (`coreStep`, a state and a command to a state and a response, R5): the core's next
state and the response depend on the core's state and the event, and on nothing on the port, and are the whole effect on the
core (R24: the command stream and the response are no state of the core). For a reset R130 and R131 give SEED, PHASE, ERR and
ECAUSE. That the core's state after a reset also fixes H1, H2, LEN and CARRY, which R131 leaves unspecified, is the model's choice
(log entry 3). That the events and the response stand on the port, that `draws` counts the event, and that no response stands
after a reset, is the model's choice too (log entries 1, 5, 7). -/
def Obligations.StepIsTheTransitionOfTheCore : Prop :=
  (∀ (s : State) (cmd : Command) (rest : List HostEvent), s.port.pending = .command cmd :: rest →
    ∃ t, step s = .next t ∧ t.toCoreState = (coreStep s.toCoreState cmd).1 ∧
      t.port = { pending := rest, response := some (coreStep s.toCoreState cmd).2, draws := s.port.draws + 1 }) ∧
  ∀ (s : State) (v : Seed) (rest : List HostEvent), s.port.pending = .reset v :: rest →
    ∃ t, step s = .next t ∧ t.toCoreState = CoreState.reset v ∧
      t.port = { pending := rest, response := none, draws := s.port.draws + 1 }

/-- With nothing pending a step changes nothing: the model's choice of a step for a core that waits (log entry 2). -/
def Obligations.StepWithNothingPendingChangesNothing : Prop :=
  ∀ s : State, s.port.pending = [] → step s = .next s

/-- Every step of every state has a next state, and a step takes exactly the first pending event and answers it if it is a
command: no hang, no fault, no refusal (R5, R42, R119, R130, R138). The MODEL'S OWN CHOICES, which no rule gives, are these clauses:
that the events and the response stand in `port` (log entry 1), that an idle step answers a next state (log entry 2), that `draws`
grows by one for each event taken (log entry 5), and that no response stands after a reset (log entry 7). -/
def Obligations.EveryEventIsAnsweredInItsStep : Prop :=
  ∀ s : State, ∃ t, step s = .next t ∧
    (∀ c rest, s.port.pending = .command c :: rest →
      t.port.pending = rest ∧ t.port.draws = s.port.draws + 1 ∧ ∃ r, t.port.response = some r) ∧
    (∀ v rest, s.port.pending = .reset v :: rest →
      t.port.pending = rest ∧ t.port.draws = s.port.draws + 1 ∧ t.port.response = none)

/-- The presented transaction of `withFetchWord` is what the next step runs (R45; log entries 1, 12). -/
def Obligations.PresentedWordIsTheNextCommand : Prop :=
  ∀ (s : State) (nbits w : Nat) (i : Instr), decodeTableWord nbits w = some i →
    step (s.withFetchWord nbits w) = exec i { s with port := { s.port with draws := s.port.draws + 1 } }

/-! ## Reset -/

/-- The state right after reset: what R22 gives (SEED the default 0, PHASE UNINIT, ERR, ECAUSE and STATUS zero), and the model's
own choices for what it leaves unspecified (log entries 1, 3, 5). -/
def Obligations.ResetStateOfTheMachine : Prop :=
  State.reset.seed = 0 ∧ State.reset.phase = .uninit ∧ State.reset.err = false ∧ State.reset.ecause = none ∧
    State.reset.status = 0x00#8 ∧ State.reset.h1 = 0 ∧ State.reset.h2 = 0 ∧ State.reset.len = 0 ∧
    (∀ a, State.reset.cell a = 0) ∧ State.reset.port = { pending := [], response := none, draws := 0 }

/-- The reset event between two commands, in any phase (R130, R131): SEED its argument, PHASE UNINIT, no error record, STATUS
0x00, DOUT unspecified, and nothing of the state before it survives but the host's own stream. That two reset cores agree in
H1, H2, LEN and CARRY as well is the model's choice (log entries 3, 7). The form of the free DOUT, `Config.freeDout` of the
counter, and the counter's advance by one are the model's choice too (log entry 5), and so is that two cores with equal counters
show the same value (log entry 18). -/
def Obligations.ResetEventGivesTheResetState : Prop :=
  ∀ (s : State) (v : Seed) (rest : List HostEvent), s.port.pending = .reset v :: rest →
    ∃ t, step s = .next t ∧ t.seed = v ∧ t.phase = .uninit ∧ t.err = false ∧ t.ecause = none ∧ t.status = 0x00#8 ∧
      t.dout = Config.freeDout t.port.draws ∧
      t.port = { pending := rest, response := none, draws := s.port.draws + 1 } ∧
      ∀ s' : State, s'.port.pending = s.port.pending → s'.port.draws = s.port.draws → step s' = .next t

/-! ## INIT -/

/-- R80: the word of INIT, its whole effect in every state, and everything it leaves as it was. -/
def Obligations.InitStartsANewMessage : Prop :=
  (∀ c : Command, decode c = .instr .init ↔ c.cw = 0x01#8) ∧
  ∀ s : State, ∃ t, exec .init s = .next t ∧
    t = { s with h1 := s.seed.setWidth 64, h2 := s.seed.setWidth 64, len := 0, phase := .ready,
                 port := { s.port with response := some .ok } } ∧
    t.cnt = 0 ∧ t.pendingBytes = [] ∧ t.port.response.map Response.rc = some 0#3 ∧
    (s.seed = 0x9747b28c#32 → s.err = false → s.ecause = none →
      t.h1 = 0x000000009747b28c#64 ∧ t.h2 = 0x000000009747b28c#64 ∧ t.status = 0x01#8)

/-- R81: INIT is accepted in every phase, DOUT no longer shows an earlier digest, what it leaves (the unread carry cells apart)
depends on SEED, ERR, ECAUSE and the port alone, and the digest of the message it opens is that of the message alone, whatever
the core held before. Rejected commands may stand among the message's UPDATEs. That DOUT, unspecified after INIT (R18), is
`Config.freeDout` of the counter `draws`, the same for every core, is the model's choice (log entries 5, 18). -/
def Obligations.InitForgetsEarlierMessages : Prop :=
  (∀ s : State, ∃ t, exec .init s = .next t ∧ t.phase = .ready ∧ t.dout = Config.freeDout t.port.draws ∧
    t.port.response = some .ok ∧ t.err = s.err ∧ t.ecause = s.ecause ∧
    ∀ s' : State, s'.seed = s.seed → s'.err = s.err → s'.ecause = s.ecause → s'.port = s.port →
      exec .init s' = .next { t with carry := s'.carry }) ∧
  ∀ (s : State) (d1 d2 : Operand) (cs : List Command) (rest : List HostEvent),
    (∀ c ∈ cs, c.cw ≠ 0x01#8 ∧ c.cw ≠ 0x03#8) →
    s.port.pending =
      .command ⟨0x01#8, d1⟩ :: (cs.map HostEvent.command ++ .command ⟨0x03#8, d2⟩ :: rest) →
    ∃ t, runSteps (cs.length + 2) s = .next t ∧ t.phase = .done ∧ t.port.pending = rest ∧
      t.port.response = some (.okDigest (hashMessage s.seed (cs.flatMap acceptedBytes)))

/-! ## UPDATE -/

/-- R85: the checks in their order, and, when none fails, `absorb` of lanes 0 to nb-1 in ascending order. -/
def Obligations.UpdateAbsorbsItsLanesInOrder : Prop :=
  ∀ (s : State) (nb : Nat) (din : Operand),
    (16 < nb → exec (.update nb din) s = .next (rejected .count s)) ∧
    (nb ≤ 16 → s.phase = .uninit → exec (.update nb din) s = .next (rejected .uninit s)) ∧
    (nb ≤ 16 → s.phase = .done → exec (.update nb din) s = .next (rejected .finalized s)) ∧
    (nb ≤ 16 → s.phase = .ready → ∃ u,
      u = (List.range nb).foldl (fun v i => absorb v (din.extractLsb' (8 * i) 8)) s.toCoreState ∧
      exec (.update nb din) s = .next { toCoreState := u, port := { s.port with response := some .ok } })

/-- R86: one message byte goes to cell CNT, LEN grows by one, the block is mixed when its 16th byte has arrived and only then, and
nothing else changes. -/
def Obligations.AbsorbedByteGoesToTheFillLevel : Prop :=
  ∀ (s : CoreState) (b : Byte), ∃ t, t = absorb s b ∧
    t.cell s.cnt = b ∧ (∀ a, a ≠ s.cnt → t.cell a = s.cell a) ∧
    t.len = s.len + 1 ∧ t.cnt = (s.cnt + 1) % 16 ∧
    (s.cnt < 15 → t.h1 = s.h1 ∧ t.h2 = s.h2) ∧
    (s.cnt = 15 → (t.h1, t.h2) = blockmix s.h1 s.h2 (le (t.cells 0 8)) (le (t.cells 8 8))) ∧
    t = { s with h1 := t.h1, h2 := t.h2, len := t.len, carry := t.carry }

/-- R87: UPDATE with no bytes in phase READY changes nothing but the response; in the other phases it is rejected. -/
def Obligations.UpdateOfNoBytesChangesNothing : Prop :=
  ∀ (s : State) (din : Operand),
    (s.phase = .ready → exec (.update 0 din) s = .next { s with port := { s.port with response := some .ok } }) ∧
    (s.phase = .uninit → exec (.update 0 din) s = .next (rejected .uninit s)) ∧
    (s.phase = .done → exec (.update 0 din) s = .next (rejected .finalized s))

/-- R88: an accepted UPDATE in the block-wise wording. LEN grows by nb; if the pending bytes and the new ones reach 16, exactly
one block of the first 16 bytes in hand is mixed; the rest stays pending; the invariant of R20 goes on; and every other item
is as it was. -/
def Obligations.UpdateMixesOneBlockAndKeepsTheRest : Prop :=
  ∀ (s : State) (nb : Nat) (din : Operand), s.phase = .ready → nb ≤ 16 →
    ∃ t hand, exec (.update nb din) s = .next t ∧ hand = s.pendingBytes ++ operandBytes din nb ∧
      t.len = s.len + BitVec.ofNat 64 nb ∧
      (16 ≤ s.cnt + nb →
        (t.h1, t.h2) = blockmix s.h1 s.h2 (le (hand.take 8)) (le ((hand.drop 8).take 8)) ∧
        t.pendingBytes = hand.drop 16) ∧
      (s.cnt + nb < 16 → t.h1 = s.h1 ∧ t.h2 = s.h2 ∧ t.pendingBytes = hand) ∧
      t = { s with h1 := t.h1, h2 := t.h2, len := t.len, carry := t.carry,
                   port := { s.port with response := some .ok } } ∧
      (∀ msg, Absorbed msg s.toCoreState → Absorbed (msg ++ operandBytes din nb) t.toCoreState)

/-- The cells an accepted UPDATE stores to are CNT, CNT+1, ... modulo 16, one for each byte; they hold the lanes, and every
other cell reads as before. INIT, FINAL and every rejected command leave all cells as they were (R30, R80, R86, R99, R116). -/
def Obligations.OnlyUpdateStoresAndOnlyToItsCells : Prop :=
  (∀ (s : State) (nb : Nat) (din : Operand), s.phase = .ready → nb ≤ 16 →
    ∃ t, exec (.update nb din) s = .next t ∧
      (∀ i < nb, t.cell ((s.cnt + i) % 16) = din.extractLsb' (8 * i) 8) ∧
      (∀ a, (∀ i < nb, a ≠ (s.cnt + i) % 16) → t.cell a = s.cell a)) ∧
  ∀ (s : State) (i : Instr), (∀ nb din, i = .update nb din → 16 < nb ∨ s.phase ≠ .ready) →
    ∃ t, exec i s = .next t ∧ t.carry = s.carry

/-- R34: the byte string of an UPDATE is lane 0 to lane nb-1 in order, lanes from nb up change nothing in the state or the
response, and a beat of 16 bytes on a block boundary gives `k1 = DIN[63:0]` and `k2 = DIN[127:64]`. -/
def Obligations.LanesBeyondTheCountAreIgnored : Prop :=
  (∀ (din : Operand) (nb i : Nat), i < nb → (operandBytes din nb)[i]? = some (din.extractLsb' (8 * i) 8)) ∧
  (∀ (s : State) (nb : Nat) (din din' : Operand),
    (∀ i < nb, din.extractLsb' (8 * i) 8 = din'.extractLsb' (8 * i) 8) →
    exec (.update nb din) s = exec (.update nb din') s) ∧
  ∀ (s : State) (din : Operand), s.phase = .ready → s.cnt = 0 →
    ∃ t, exec (.update 16 din) s = .next t ∧
      (t.h1, t.h2) = blockmix s.h1 s.h2 (din.extractLsb' 0 64) (din.extractLsb' 64 64) ∧ t.pendingBytes = []

/-- What UPDATE never does (R91): it leaves no digest in the response, does not leave phase READY, does not read SEED, and mixes
nothing into the accumulators before a block is complete. -/
def Obligations.UpdateNeverFinishesAMessage : Prop :=
  ∀ (s : State) (nb : Nat) (din : Operand), ∃ t, exec (.update nb din) s = .next t ∧
    (∀ d, t.port.response ≠ some (.okDigest d)) ∧ t.phase = s.phase ∧
    (s.cnt + nb < 16 → t.h1 = s.h1 ∧ t.h2 = s.h2) ∧
    ∀ v, exec (.update nb din) { s with seed := v } = .next { t with seed := v }

/-- R89: two sequences of accepted UPDATE commands with the same byte string leave states that agree in H1, H2, LEN, CNT and the
pending bytes, and give the same digest at FINAL. -/
def Obligations.IncrementalEquivalence : Prop :=
  ∀ (s : State) (xs ys : List (Nat × Operand)), s.phase = .ready →
    (∀ x ∈ xs, x.1 ≤ 16) → (∀ y ∈ ys, y.1 ≤ 16) →
    (xs.flatMap fun x => operandBytes x.2 x.1) = (ys.flatMap fun y => operandBytes y.2 y.1) →
    ∃ t u t' u', execList (xs.map fun x => .update x.1 x.2) s = .next t ∧
      execList (ys.map fun y => .update y.1 y.2) s = .next u ∧
      t.h1 = u.h1 ∧ t.h2 = u.h2 ∧ t.len = u.len ∧ t.cnt = u.cnt ∧ t.pendingBytes = u.pendingBytes ∧
      exec .final t = .next t' ∧ exec .final u = .next u' ∧ t'.port.response = u'.port.response

/-! ## FINAL -/

/-- R95: the word, the checks, and in phase READY the digest `finalmix(tailmix(H1, H2, CARRY[0..r-1]), LEN)`, written as one
equation of the whole next state, so that everything it does not name is as it was; and the rule's worked example. -/
def Obligations.FinalProducesTheDigest : Prop :=
  (∀ c : Command, decode c = .instr .final ↔ c.cw = 0x03#8) ∧
  (∀ s : State,
    (s.phase = .uninit → exec .final s = .next (rejected .uninit s)) ∧
    (s.phase = .done → exec .final s = .next (rejected .finalized s)) ∧
    (s.phase = .ready → ∃ m f, m = tailmix s.h1 s.h2 s.pendingBytes ∧ f = finalmix m.1 m.2 s.len ∧
      exec .final s = .next
        { s with h1 := f.1, h2 := f.2, phase := .done,
                 port := { s.port with response := some (.okDigest (digest f.1 f.2)) } })) ∧
  ∀ s : State, s.phase = .ready → s.h1 = 0 → s.h2 = 0 → s.len = 5 → s.pendingBytes = [0x68, 0x65, 0x6c, 0x6c, 0x6f] →
    ∃ t, exec .final s = .next t ∧ t.h1 = 0xcbd8a7b341bd9b02#64 ∧ t.h2 = 0x5b1e906a48ae1d19#64 ∧
      t.port.response = some (.okDigest
        [0x02, 0x9b, 0xbd, 0x41, 0xb3, 0xa7, 0xd8, 0xcb, 0x19, 0x1d, 0xae, 0x48, 0x6a, 0x90, 0x1e, 0x5b])

/-- R96: the tail inside FINAL, byte by byte. The words hold cell `o` at its place when it is pending and zero elsewhere, whatever
the other cells hold; up to 8 pending bytes leave H2 to the rest of the finalization; with none pending the tail step changes
nothing. -/
def Obligations.FinalFoldsOnlyThePendingCells : Prop :=
  ∀ (s : State) (k1 k2 : Word), s.phase = .ready →
    (∀ o < 8, k1.extractLsb' (8 * o) 8 = if o < s.cnt then s.cell o else 0) →
    (∀ o < 8, k2.extractLsb' (8 * o) 8 = if 8 + o < s.cnt then s.cell (8 + o) else 0) →
    ∃ t, exec .final s = .next t ∧
      (t.h1, t.h2) = finalmix (s.h1 ^^^ mixk1 k1) (s.h2 ^^^ mixk2 k2) s.len ∧
      (s.cnt ≤ 8 → (t.h1, t.h2) = finalmix (s.h1 ^^^ mixk1 k1) s.h2 s.len) ∧
      (s.cnt = 0 → (t.h1, t.h2) = finalmix s.h1 s.h2 s.len)

/-- When every pending byte is zero, FINAL depends on the accumulators and the whole 64-bit LEN alone (R72, R97). -/
def Obligations.ZeroTailLeavesOnlyTheLength : Prop :=
  ∀ s : State, s.phase = .ready → (∀ b ∈ s.pendingBytes, b = 0) →
    ∃ t, exec .final s = .next t ∧ (t.h1, t.h2) = finalmix s.h1 s.h2 s.len

/-- R99: after an accepted FINAL the phase is DONE, H1 and H2 hold the digest halves, LEN, CARRY and SEED are unchanged, and the
commands that would read LEN or CARRY, a second FINAL and an UPDATE, are rejected. -/
def Obligations.StateAfterAnAcceptedFinal : Prop :=
  ∀ s : State, s.phase = .ready → ∃ t, exec .final s = .next t ∧ t.phase = .done ∧
    t.port.response = some (.okDigest (le64 t.h1 ++ le64 t.h2)) ∧
    t.len = s.len ∧ t.carry = s.carry ∧ t.seed = s.seed ∧ t.err = s.err ∧ t.ecause = s.ecause ∧
    exec .final t = .next (rejected .finalized t) ∧
    ∀ nb din, nb ≤ 16 → exec (.update nb din) t = .next (rejected .finalized t)

/-- R98: the digest is exactly 16 bytes, is in the response, and stands on DOUT, with H1 in the low half and byte `j` in lane
`j`, while the phase is DONE. -/
def Obligations.DigestStandsOnDout : Prop :=
  ∀ s : State, s.phase = .ready → ∃ t d, exec .final s = .next t ∧ t.phase = .done ∧
    t.port.response = some (.okDigest d) ∧ d = le64 t.h1 ++ le64 t.h2 ∧ d.length = 16 ∧
    ∀ u : State, u.phase = .done → u.h1 = t.h1 → u.h2 = t.h2 →
      u.dout.extractLsb' 0 64 = t.h1 ∧ u.dout.extractLsb' 64 64 = t.h2 ∧
      ∀ j < 16, d[j]? = some (u.dout.extractLsb' (8 * j) 8)

/-! ## Exceptions -/

/-- R112: a count of 17 to 31 is rejected with E_COUNT, code 2, in every phase, and no byte of the beat is absorbed. -/
def Obligations.CountAboveSixteenIsRejected : Prop :=
  ∀ (s : State) (nb : Nat) (din : Operand), 17 ≤ nb →
    ∃ t, exec (.update nb din) s = .next t ∧ t.port.response = some (.err .count) ∧ Cause.count.code = 2#3 ∧
      t.h1 = s.h1 ∧ t.h2 = s.h2 ∧ t.len = s.len ∧ t.carry = s.carry ∧ t.phase = s.phase ∧ t.seed = s.seed

/-- R113: in phase UNINIT, UPDATE with a legal count and FINAL are rejected with E_UNINIT, code 3; INIT is accepted. -/
def Obligations.BeforeInitOnlyInitIsAccepted : Prop :=
  Cause.uninit.code = 3#3 ∧ ∀ s : State, s.phase = .uninit →
    (∀ nb din, nb ≤ 16 → exec (.update nb din) s = .next (rejected .uninit s)) ∧
    exec .final s = .next (rejected .uninit s) ∧
    ∃ t, exec .init s = .next t ∧ t.phase = .ready ∧ t.port.response = some .ok

/-- R114: in phase DONE, UPDATE with a legal count and FINAL are rejected with E_FINALIZED, code 4; the response has no
digest, and the old digest stays on DOUT. -/
def Obligations.AfterFinalUpdateAndFinalAreRejected : Prop :=
  Cause.finalized.code = 4#3 ∧
  ∀ (s : State) (i : Instr), s.phase = .done → (i = .final ∨ ∃ nb din, nb ≤ 16 ∧ i = .update nb din) →
    exec i s = .next (rejected .finalized s) ∧ (rejected .finalized s).dout = s.dout ∧
      (rejected .finalized s).port.response = some (.err .finalized)

/-- R116: whatever the command, if the answer is ERR(c), the state is the one before it but for the error record, written only if
it is the first, and the response. -/
def Obligations.RejectedCommandChangesOnlyTheErrorRecord : Prop :=
  ∀ (s t : State) (cmd : Command) (rest : List HostEvent) (c : Cause),
    s.port.pending = .command cmd :: rest → step s = .next t → t.port.response = some (.err c) →
      t.seed = s.seed ∧ t.h1 = s.h1 ∧ t.h2 = s.h2 ∧ t.len = s.len ∧ t.carry = s.carry ∧ t.phase = s.phase ∧
      (s.err = false → t.err = true ∧ t.ecause = some c) ∧
      (s.err = true → t.err = true ∧ t.ecause = s.ecause)

/-- R115: at most one cause, in the order of the decision procedure on the command word and the phase (`causeOf`); with no cause
the command executes. -/
def Obligations.CausesAreReportedInPriorityOrder : Prop :=
  ∀ (s : State) (cmd : Command) (rest : List HostEvent), s.port.pending = .command cmd :: rest →
    (∀ c, causeOf cmd.cw s.phase = some c → step s = .next (rejected c (takeEvent rest s))) ∧
    (causeOf cmd.cw s.phase = none →
      (cmd.cw.extractLsb' 0 2 = 0b01#2 → step s = exec .init (takeEvent rest s)) ∧
      (cmd.cw.extractLsb' 0 2 = 0b10#2 →
        step s = exec (.update (cmd.cw.extractLsb' 2 5).toNat cmd.din) (takeEvent rest s)) ∧
      (cmd.cw.extractLsb' 0 2 = 0b11#2 → step s = exec .final (takeEvent rest s)) ∧
      ∃ t, step s = .next t ∧ (t.port.response = some .ok ∨ ∃ d, t.port.response = some (.okDigest d)))

/-- R117: the response of a rejected command is its cause with no payload; DOUT keeps the earlier digest in phase DONE and is
unspecified otherwise. That it is then `Config.freeDout` of the counter `draws` is the model's choice (log entry 5). -/
def Obligations.RejectedCommandKeepsTheOldDigest : Prop :=
  ∀ (s : State) (cmd : Command) (rest : List HostEvent) (c : Cause),
    s.port.pending = .command cmd :: rest → causeOf cmd.cw s.phase = some c →
    ∃ t, step s = .next t ∧ t.port.response = some (.err c) ∧ (Response.err c).rc = c.code ∧
      1 ≤ c.code.toNat ∧ c.code.toNat ≤ 4 ∧
      (s.phase = .done → t.dout = s.dout) ∧ (s.phase ≠ .done → t.dout = Config.freeDout t.port.draws)

/-- R125: the complete transition table. -/
def Obligations.PhaseTransitionTable : Prop :=
  ∀ (s : State) (cmd : Command) (rest : List HostEvent), s.port.pending = .command cmd :: rest →
    ∃ t r, step s = .next t ∧ t.port.response = some r ∧
      (decode cmd = .instr .init → r = .ok ∧ t.phase = .ready) ∧
      (∀ nb din, decode cmd = .instr (.update nb din) → nb ≤ 16 →
        (s.phase = .uninit → r = .err .uninit ∧ t.phase = .uninit) ∧
        (s.phase = .ready → r = .ok ∧ t.phase = .ready) ∧
        (s.phase = .done → r = .err .finalized ∧ t.phase = .done)) ∧
      (∀ nb din, decode cmd = .instr (.update nb din) → 17 ≤ nb → r = .err .count ∧ t.phase = s.phase) ∧
      (decode cmd = .instr .final →
        (s.phase = .uninit → r = .err .uninit ∧ t.phase = .uninit) ∧
        (s.phase = .ready → (∃ d, r = .okDigest d) ∧ t.phase = .done) ∧
        (s.phase = .done → r = .err .finalized ∧ t.phase = .done)) ∧
      (∀ w, decode cmd = .reserved w → r = .err .illegal ∧ t.phase = s.phase) ∧
      ∀ u v rest', u.port.pending = .reset v :: rest' → ∃ t', step u = .next t' ∧ t'.phase = .uninit

/-- R53: RC is 0 when the command is accepted and the cause code, 1 to 4, when it is rejected; only an accepted FINAL returns a
digest, and its bytes are those on DOUT right after it. -/
def Obligations.ResponseCodes : Prop :=
  ∀ (s : State) (cmd : Command) (rest : List HostEvent), s.port.pending = .command cmd :: rest →
    ∃ t r, step s = .next t ∧ t.port.response = some r ∧
      (causeOf cmd.cw s.phase = none → r.rc = 0#3) ∧
      (∀ c, causeOf cmd.cw s.phase = some c → r.rc = c.code ∧ 1 ≤ r.rc.toNat) ∧ r.rc.toNat ≤ 4 ∧
      ((∃ d, r = .okDigest d) ↔ cmd.cw = 0x03#8 ∧ s.phase = .ready) ∧
      (∀ d, r = .okDigest d → d = (List.range 16).map fun j => t.dout.extractLsb' (8 * j) 8)

/-! ## Registers and views -/

/-- R16: ERR is 0 after a reset; the first rejection sets it and writes its cause, later ones change neither, no command clears
them, ECAUSE is 0 while ERR is 0, the cause codes are 1 to 4, and ERR and ECAUSE change nothing of what a command does. -/
def Obligations.ErrorRecordIsSticky : Prop :=
  (∀ (s : State) (v : Seed) (rest : List HostEvent), s.port.pending = .reset v :: rest →
    ∃ t, step s = .next t ∧ t.err = false ∧ t.ecauseCode = 0#3) ∧
  ∀ (s : State) (cmd : Command) (rest : List HostEvent), s.port.pending = .command cmd :: rest →
    ∃ t, step s = .next t ∧
      (∀ c, causeOf cmd.cw s.phase = some c → s.err = false → t.err = true ∧ t.ecauseCode = c.code ∧
        1 ≤ c.code.toNat ∧ c.code.toNat ≤ 4) ∧
      (s.err = true → t.err = true ∧ t.ecause = s.ecause) ∧
      (causeOf cmd.cw s.phase = none → t.err = s.err ∧ t.ecause = s.ecause) ∧
      (s.Inv → t.err = false → t.ecauseCode = 0#3) ∧
      ∀ e c, ∃ u, step { s with err := e, ecause := c } = .next u ∧ { u with err := t.err, ecause := t.ecause } = t

/-- R12: the reset event loads SEED with its argument (0 by default), no command writes it, INIT widens it into both
accumulators, and neither STATUS nor DOUT shows it. -/
def Obligations.SeedIsWrittenOnlyByReset : Prop :=
  State.reset.seed = 0 ∧
  (∀ (s : State) (v : Seed) (rest : List HostEvent), s.port.pending = .reset v :: rest →
    ∃ t, step s = .next t ∧ t.seed = v) ∧
  (∀ (s : State) (cmd : Command) (rest : List HostEvent), s.port.pending = .command cmd :: rest →
    ∃ t, step s = .next t ∧ t.seed = s.seed ∧
      (decode cmd = .instr .init → t.h1 = s.seed.setWidth 64 ∧ t.h2 = s.seed.setWidth 64)) ∧
  ∀ (s : State) (v : Seed), { s with seed := v }.status = s.status ∧ { s with seed := v }.dout = s.dout

/-- R13: INIT writes 0, an accepted UPDATE adds its count, modulo 2^64, FINAL and every rejected command leave LEN, and neither
STATUS nor DOUT shows it. -/
def Obligations.LengthCountsAcceptedBytes : Prop :=
  (∀ (s : State) (cmd : Command) (rest : List HostEvent), s.port.pending = .command cmd :: rest →
    ∃ t, step s = .next t ∧
      (decode cmd = .instr .init → t.len = 0) ∧
      (∀ nb din, decode cmd = .instr (.update nb din) → causeOf cmd.cw s.phase = none →
        t.len = s.len + BitVec.ofNat 64 nb ∧ t.len.toNat = (s.len.toNat + nb) % 2 ^ 64) ∧
      (decode cmd = .instr .final → t.len = s.len) ∧
      (∀ c, causeOf cmd.cw s.phase = some c → t.len = s.len)) ∧
  ∀ (s : State) (n : Word), { s with len := n }.status = s.status ∧ { s with len := n }.dout = s.dout

/-- R17: the fields of STATUS, and its four examples. -/
def Obligations.StatusFields : Prop :=
  (∀ s : State, s.status.extractLsb' 0 2 = s.phase.code ∧ s.status.getLsbD 2 = s.err ∧
    s.status.extractLsb' 3 3 = s.ecauseCode ∧ s.status.extractLsb' 6 2 = 0#2 ∧
    (s.Inv → s.err = false → s.status.extractLsb' 3 3 = 0#3)) ∧
  State.reset.status = 0x00#8 ∧
  ∀ s : State, s.err = false → s.ecause = none →
    (∃ t, exec .init s = .next t ∧ t.status = 0x01#8) ∧
    (s.phase = .ready → ∃ t, exec .final s = .next t ∧ t.status = 0x02#8) ∧
    (s.phase = .uninit → ∃ t, exec .final s = .next t ∧ t.status = 0x1C#8)

/-- R18: in phase DONE, DOUT is H1 in bits 63:0 and H2 in bits 127:64, lane `j` being byte `j` of the digest; in the other phases
it is a free value and no window on the accumulators; its 16 bytes are the payload of
FINAL's response. That the free value is `Config.freeDout` of the counter `draws` is the model's
choice (log entry 5): R18 allows a free draw or a refusal, and gives no counter. -/
def Obligations.DoutShowsTheDigestOnlyWhenDone : Prop :=
  ∀ s : State,
    (s.phase = .done → s.dout.extractLsb' 0 64 = s.h1 ∧ s.dout.extractLsb' 64 64 = s.h2 ∧
      ∀ j < 16, (digest s.h1 s.h2)[j]? = some (s.dout.extractLsb' (8 * j) 8)) ∧
    (s.phase ≠ .done → s.dout = Config.freeDout s.port.draws ∧
      ∀ x y, { s with h1 := x, h2 := y }.dout = s.dout) ∧
    (s.phase = .ready → ∃ t, exec .final s = .next t ∧
      t.port.response = some (.okDigest ((List.range 16).map fun j => t.dout.extractLsb' (8 * j) 8)))

/-- What a later command or the host can read determines everything the host will ever see (R21, R22, R113; 93 U9, U10, U12): two
states that differ only in the values a reset leaves unspecified, or in carry cells that are not pending, look the same and
step to states that again differ in nothing else. So no claim about what is seen rests on log entries 3 and 4. That
the two show the same DOUT outside DONE is the model's choice (log entries 5, 18). -/
def Obligations.UnspecifiedValuesAreNeverObserved : Prop :=
  ∀ s t : State, SameLive s t →
    observation s = observation t ∧ ∃ s' t', step s = .next s' ∧ step t = .next t' ∧ SameLive s' t'

/-! ## Invariants -/

/-- The invariant holds at reset. -/
def Obligations.ResetMeetsTheInvariants : Prop := State.reset.Inv

/-- Every step keeps the carry buffer in canonical form and the error record consistent (R14, R16, R30). -/
def Obligations.StepKeepsTheInvariants : Prop :=
  ∀ s t : State, s.Inv → step s = .next t → t.Inv

/-- R20: between commands in phase READY, LEN is the message length, CNT its remainder, the pending bytes its tail and the
accumulators those of its whole blocks. INIT makes it so for the empty message from any state, and every command but FINAL keeps
it, for the message with the bytes an accepted UPDATE adds. -/
def Obligations.ReadyStateReflectsTheMessage : Prop :=
  (∀ (s : State) (d : Operand) (rest : List HostEvent), s.port.pending = .command ⟨0x01#8, d⟩ :: rest →
    ∃ t, step s = .next t ∧ Absorbed [] t.toCoreState) ∧
  ∀ (s : State) (msg : List Byte) (cmd : Command) (rest : List HostEvent), Absorbed msg s.toCoreState →
    s.port.pending = .command cmd :: rest → cmd.cw ≠ 0x01#8 → cmd.cw ≠ 0x03#8 →
    ∃ t, step s = .next t ∧ Absorbed (msg ++ acceptedBytes cmd) t.toCoreState

/-- R100: a core reset with seed `v`, then an accepted INIT, then any UPDATE commands, then FINAL, with any number of rejected
commands anywhere among them: the FINAL is accepted and its digest is `H(v, msg)`, whatever the core held before the reset. -/
def Obligations.WholeMessageDigest : Prop :=
  ∀ (s : State) (v : Seed) (pre cs : List Command) (d1 d2 : Operand) (rest : List HostEvent),
    (∀ c ∈ pre, c.cw ≠ 0x01#8) → (∀ c ∈ cs, c.cw ≠ 0x01#8 ∧ c.cw ≠ 0x03#8) →
    s.port.pending = .reset v :: (pre.map HostEvent.command ++
      .command ⟨0x01#8, d1⟩ :: (cs.map HostEvent.command ++ .command ⟨0x03#8, d2⟩ :: rest)) →
    ∃ t, runSteps (pre.length + cs.length + 3) s = .next t ∧ t.phase = .done ∧ t.port.pending = rest ∧
      t.port.response = some (.okDigest (hashMessage v (cs.flatMap acceptedBytes)))

/-- ERR is 0 at the end of a run of commands exactly when it was 0 at the start and every command of the run was accepted
(R16, R118, R139). -/
def Obligations.NoErrorMeansNothingWasRejected : Prop :=
  ∀ (cs : List Command) (s : State) (rest : List HostEvent), s.port.pending = cs.map HostEvent.command ++ rest →
    ∃ t, runSteps cs.length s = .next t ∧
      (t.err = false ↔ s.err = false ∧
        ∀ k < cs.length, ∃ u r, runSteps (k + 1) s = .next u ∧ u.port.response = some r ∧ r.rc = 0#3)

/-- R124: cores share nothing, and any interleaving of their steps gives each core the same result: the one it reaches alone in
as many steps of its own. -/
def Obligations.InstancesAreIndependent : Prop :=
  ∀ (order : List Nat) (cores : List State), ∃ r, runInstances order cores = .next r ∧ r.length = cores.length ∧
    ∀ (k : Nat) (s : State), cores[k]? = some s → ∃ t, runSteps (order.count k) s = .next t ∧ r[k]? = some t

/-! ## Pseudo-instructions and assembler lines -/

/-- R55: NOP is UPDATE 0, a no-op only in READY; UPDATEL is floor(m/16) beats of 16 and one of m mod 16 when that is not zero,
carrying the bytes in order; HASH is INIT, UPDATEL and FINAL, and from any state answers the digest of its bytes. -/
def Obligations.PseudoInstructionExpansions : Prop :=
  (∃ i, Pseudo.nop.expand = [i] ∧ (encode i).cw = 0x02#8 ∧ ∀ s : State,
    (s.phase = .ready → exec i s = .next { s with port := { s.port with response := some .ok } }) ∧
    (s.phase = .uninit → exec i s = .next (rejected .uninit s)) ∧
    (s.phase = .done → exec i s = .next (rejected .finalized s))) ∧
  (∀ bytes : List Byte,
    ((Pseudo.updatel bytes).expand.flatMap fun i => acceptedBytes (encode i)) = bytes ∧
    ((Pseudo.updatel bytes).expand.map fun i => (encode i).cw) =
      List.replicate (bytes.length / 16) 0x42#8 ++
        (if bytes.length % 16 = 0 then [] else [BitVec.ofNat 8 (0x02 + 4 * (bytes.length % 16))]) ∧
    (Pseudo.hash bytes).expand = .init :: ((Pseudo.updatel bytes).expand ++ [.final])) ∧
  ∀ (s : State) (bytes : List Byte) (rest : List HostEvent),
    s.port.pending = ((Pseudo.hash bytes).expand.map fun i => HostEvent.command (encode i)) ++ rest →
    ∃ t, runSteps (Pseudo.hash bytes).expand.length s = .next t ∧ t.port.pending = rest ∧
      t.port.response = some (.okDigest (hashMessage s.seed bytes))

/-- What the lines of the assembler syntax put on the port (R54): a well-formed UPDATE line with a legal count decodes to UPDATE
with that count, carries its bytes in order from lane 0, and leaves the other lanes zero. -/
def Obligations.AssemblerLinesGiveTheirEvents : Prop :=
  AsmLine.init.event = .command ⟨0x01#8, 0⟩ ∧ AsmLine.final.event = .command ⟨0x03#8, 0⟩ ∧
  (∀ w, (AsmLine.cw w).event = .command ⟨w, 0⟩) ∧ (∀ v, (AsmLine.reset v).event = .reset v) ∧
  ∀ (nb : Nat) (bytes : List Byte), (AsmLine.update nb bytes).wf = true → nb ≤ 16 →
    ∃ c, (AsmLine.update nb bytes).event = .command c ∧ c.cw = BitVec.ofNat 8 (0x02 + 4 * nb) ∧
      decode c = .instr (.update nb c.din) ∧ operandBytes c.din nb = bytes ∧
      ∀ i, nb ≤ i → c.din.extractLsb' (8 * i) 8 = 0

/-! ## The datapath -/

/-- R64: the rotation formula, where each bit goes, and the rule's three examples. -/
def Obligations.RotationMovesEveryBit : Prop :=
  (∀ (x : Word) (n : Nat) (h : 1 ≤ n ∧ n ≤ 63),
    rotl64 x n h = (x <<< n) ||| (x >>> (64 - n)) ∧
    ∀ i < 64, (rotl64 x n h).getLsbD ((i + n) % 64) = x.getLsbD i) ∧
  rotl64 0x0000000000000001#64 27 = 0x0000000008000000#64 ∧ rotl64 0x8000000000000000#64 31 = 0x0000000040000000#64 ∧
  rotl64 0x0123456789abcdef#64 33 = 0x13579bde02468acf#64

/-- R67: byte assembly and LE64 are inverse on 8 bytes, and the sum of the shifted bytes is their bitwise or and their exclusive
or as well. -/
def Obligations.ByteAssemblyIsInverseToLE64 : Prop :=
  (∀ v : Word, le (le64 v) = v) ∧
  (∀ bs : List Byte, bs.length = 8 → le64 (le bs) = bs) ∧
  (∀ (bs : List Byte) (b : Byte), bs.length ≤ 7 →
    le (bs ++ [b]) = le bs ||| (b.setWidth 64 <<< (8 * bs.length)) ∧
    le (bs ++ [b]) = le bs ^^^ (b.setWidth 64 <<< (8 * bs.length)) ∧
    le (bs ++ [b]) = le bs + (b.setWidth 64 <<< (8 * bs.length))) ∧ le [] = 0 ∧
  le [0x68, 0x65, 0x6c, 0x6c, 0x6f] = 0x0000006f6c6c6568#64

/-- R70 (conflict C1): the block-mixing step as listed, reading the old `h2` and then the new `h1'`, with the rule's corner case and
worked example. -/
def Obligations.BlockMixAsListed : Prop :=
  (∀ h1 h2 k1 k2 a b h1' h2' : Word,
    a = h1 ^^^ mixk1 k1 → h1' = (rotl64 a 27 + h2) * 5#64 + 0x52dce729#64 →
    b = h2 ^^^ mixk2 k2 → h2' = (rotl64 b 31 + h1') * 5#64 + 0x38495ab5#64 →
    blockmix h1 h2 k1 k2 = (h1', h2')) ∧
  blockmix 0 0 0 0 = (0x0000000052dce729#64, 0x00000001d699de82#64) ∧
  blockmix 0 0 0x0706050403020100#64 0x0f0e0d0c0b0a0908#64 = (0xdcac505ea5c458df#64, 0x72927c4be244042d#64)

/-- R71 (conflict C2): where each byte of a tail lands; every place beyond the tail holds zero; the rule's examples. -/
def Obligations.TailWordsPlaceEveryByte : Prop :=
  tailwords [0x68, 0x65, 0x6c, 0x6c, 0x6f] = (0x0000006f6c6c6568#64, 0) ∧
  tailwords [0, 1, 2, 3, 4, 5, 6, 7, 8, 9, 10, 11, 12, 13, 14] = (0x0706050403020100#64, 0x000e0d0c0b0a0908#64) ∧
  tailwords [0, 1, 2, 3, 4, 5, 6, 7, 8] = (0x0706050403020100#64, 0x0000000000000008#64) ∧
  ∀ t : List Byte, t.length ≤ 15 →
    (∀ o < 8, (tailwords t).1.extractLsb' (8 * o) 8 = t.getD o 0) ∧
    (∀ o < 8, (tailwords t).2.extractLsb' (8 * o) 8 = t.getD (8 + o) 0) ∧
    (t.length ≤ 8 → (tailwords t).2 = 0) ∧ (tailwords t).2.extractLsb' 56 8 = 0 ∧ tailwords [] = (0, 0)

/-- R72 (conflict C4): the tail step is the two exclusive ors, the identity for the empty tail and for a tail of zero bytes. -/
def Obligations.TailMixIsTwoXors : Prop :=
  ∀ (h1 h2 : Word) (t : List Byte), t.length ≤ 15 →
    tailmix h1 h2 t = (h1 ^^^ mixk1 (tailwords t).1, h2 ^^^ mixk2 (tailwords t).2) ∧
    tailmix h1 h2 [] = (h1, h2) ∧ ((∀ b ∈ t, b = 0) → tailmix h1 h2 t = (h1, h2))

/-- R74: with `p = h1 XOR len` and `q = h2 XOR len`, the accumulators are `p + q` and `p + 2q` before the avalanche mixes, and the
second cross-add is sequential too. -/
def Obligations.FinalMixCrossAddsInSequence : Prop :=
  ∀ h1 h2 len p q x y : Word, p = h1 ^^^ len → q = h2 ^^^ len →
    x = fmix64 (p + q) → y = fmix64 (p + 2#64 * q) → finalmix h1 h2 len = (x + y, x + 2#64 * y)

/-- R36 and R75: the digest is 16 bytes, byte `j` in bits `8j+7:8j` of `h1 + h2 * 2^64`, and R36's example. -/
def Obligations.DigestIsLittleEndianH1First : Prop :=
  (∀ h1 h2 : Word, digest h1 h2 = le64 h1 ++ le64 h2 ∧ (digest h1 h2).length = 16 ∧
    (∀ j < 8, (digest h1 h2)[j]? = some (h1.extractLsb' (8 * j) 8)) ∧
    (∀ j < 8, (digest h1 h2)[8 + j]? = some (h2.extractLsb' (8 * j) 8)) ∧
    ∀ j < 16, (digest h1 h2)[j]? = some ((BitVec.ofNat 128 (h1.toNat + h2.toNat * 2 ^ 64)).extractLsb' (8 * j) 8)) ∧
  digest 0xcbd8a7b341bd9b02#64 0x5b1e906a48ae1d19#64 =
    [0x02, 0x9b, 0xbd, 0x41, 0xb3, 0xa7, 0xd8, 0xcb, 0x19, 0x1d, 0xae, 0x48, 0x6a, 0x90, 0x1e, 0x5b]

/-- The avalanche mix and the two key mixers are bijections on 64-bit words (40_datapath_functions.md section 9). -/
def Obligations.MixersAreBijections : Prop :=
  Function.Bijective fmix64 ∧ Function.Bijective mixk1 ∧ Function.Bijective mixk2

/-- For fixed block words, the block-mixing step is a bijection of the pair of accumulators (40_datapath_functions.md section 9). -/
def Obligations.BlockMixIsABijection : Prop :=
  ∀ k1 k2 : Word, Function.Bijective fun h : Word × Word => blockmix h.1 h.2 k1 k2
end

