-- ==== Sys2Proof/Laws/Memory.lean ====
section
/-! SUPPORT. The carry buffer as a list of cells: a read after a write, and the canonical form that every write keeps. -/

namespace Sys2Proof.Machine

@[simp] theorem memory_read_nil (a : Nat) : Memory.read [] a = blankByte := rfl

theorem memory_read_cons (k : Nat) (b : Byte) (m : Memory) (a : Nat) :
    Memory.read ((k, b) :: m) a = if k = a then b else Memory.read m a := rfl

/-- Dropping a cell's pairs blanks that cell and leaves every other. -/
theorem memory_read_filter (m : Memory) (a i : Nat) :
    Memory.read (m.filter fun c => c.1 != a) i = if i = a then blankByte else Memory.read m i := by
  induction m with
  | nil => simp
  | cons c m ih =>
    obtain ⟨k, b⟩ := c
    by_cases hk : k = a
    · subst hk
      rw [List.filter_cons_of_neg (by simp), ih, memory_read_cons]
      split <;> rename_i h
      · rfl
      · rw [if_neg (fun e => h e.symm)]
    · rw [List.filter_cons_of_pos (by simpa using hk), memory_read_cons, memory_read_cons, ih]
      split <;> rename_i h
      · rw [if_neg (fun e => hk (h.trans e))]
      · rfl

/-- Inserting into a list without a pair for the cell sets that cell and leaves every other. -/
theorem memory_read_insertCell (m : Memory) (a i : Nat) (v : Byte) (h : ∀ c ∈ m, c.1 ≠ a) :
    Memory.read (Memory.insertCell m a v) i = if i = a then v else Memory.read m i := by
  induction m with
  | nil => simp only [Memory.insertCell, memory_read_cons, eq_comm]
  | cons c m ih =>
    obtain ⟨k, b⟩ := c
    have hk : k ≠ a := h (k, b) (by simp)
    unfold Memory.insertCell
    split
    · simp only [memory_read_cons, eq_comm]
    · rw [memory_read_cons, ih fun c hc => h c (by simp [hc]), memory_read_cons]
      by_cases hi : k = i
      · subst hi; simp [hk]
      · simp [hi]

/-- A read after a write: the byte written in the cell written, every other cell as it was. -/
theorem memory_read_write (m : Memory) (a i : Nat) (v : Byte) :
    Memory.read (Memory.write m a v) i = if i = a then v else Memory.read m i := by
  unfold Memory.write
  split
  · rw [memory_read_filter]; simp_all
  · rw [memory_read_insertCell _ _ _ _ (by simp), memory_read_filter]
    split <;> rfl

theorem memory_wf_iff (m : Memory) :
    Memory.wf m = true ↔ (m.Pairwise fun c d => c.1 < d.1) ∧ ∀ c ∈ m, c.1 < 16 ∧ c.2 ≠ blankByte := by
  simp [Memory.wf, -Prod.forall]

theorem mem_insertCell (m : Memory) (a : Nat) (v : Byte) (c : Host.Cell) :
    c ∈ Memory.insertCell m a v ↔ c = (a, v) ∨ c ∈ m := by
  induction m with
  | nil => simp [Memory.insertCell]
  | cons d m ih =>
    obtain ⟨k, b⟩ := d
    unfold Memory.insertCell
    split
    · simp
    · simp only [List.mem_cons, ih]; tauto

theorem insertCell_pairwise (m : Memory) (a : Nat) (v : Byte) (hm : m.Pairwise fun c d => c.1 < d.1)
    (ha : ∀ c ∈ m, c.1 ≠ a) : (Memory.insertCell m a v).Pairwise fun c d => c.1 < d.1 := by
  induction m with
  | nil => simp [Memory.insertCell]
  | cons d m ih =>
    obtain ⟨k, b⟩ := d
    obtain ⟨hk, hm⟩ := List.pairwise_cons.1 hm
    unfold Memory.insertCell
    split <;> rename_i hlt
    · refine List.pairwise_cons.2 ⟨fun c hc => ?_, List.pairwise_cons.2 ⟨hk, hm⟩⟩
      rcases List.mem_cons.1 hc with rfl | hc
      · exact hlt
      · exact hlt.trans (hk c hc)
    · refine List.pairwise_cons.2 ⟨fun c hc => ?_, ih hm fun c hc => ha c (by simp [hc])⟩
      rcases (mem_insertCell m a v c).1 hc with rfl | hc
      · have := ha (k, b) (by simp); simp only at this; show k < a; omega
      · exact hk c hc

/-- Every write to a cell that exists keeps the canonical form. -/
theorem memory_write_wf (m : Memory) (a : Nat) (v : Byte) (ha : a < 16) (hm : Memory.wf m = true) :
    Memory.wf (Memory.write m a v) = true := by
  rw [memory_wf_iff] at hm ⊢
  obtain ⟨hp, hc⟩ := hm
  have hp' := hp.filter fun c => c.1 != a
  unfold Memory.write
  split <;> rename_i hv
  · exact ⟨hp', fun c h => hc c (List.mem_filter.1 h).1⟩
  · refine ⟨insertCell_pairwise _ _ _ hp' (by simp), fun c h => ?_⟩
    rcases (mem_insertCell _ _ _ _).1 h with rfl | h
    · exact ⟨ha, hv⟩
    · exact hc c (List.mem_filter.1 h).1

theorem memory_wf_nil : Memory.wf [] = true := rfl

end Sys2Proof.Machine
end

