-- ==== Sys2Proof/Laws/State.lean ====
section
/-! SUPPORT. One lemma per field of each named update, so that no later proof unfolds a record update. -/

namespace Sys2Proof.Machine

@[simp] theorem setHash_seed (h : Word × Word) (s : CoreState) : (setHash h s).seed = s.seed := (rfl)
@[simp] theorem setHash_h1 (h : Word × Word) (s : CoreState) : (setHash h s).h1 = h.1 := (rfl)
@[simp] theorem setHash_h2 (h : Word × Word) (s : CoreState) : (setHash h s).h2 = h.2 := (rfl)
@[simp] theorem setHash_len (h : Word × Word) (s : CoreState) : (setHash h s).len = s.len := (rfl)
@[simp] theorem setHash_carry (h : Word × Word) (s : CoreState) : (setHash h s).carry = s.carry := (rfl)
@[simp] theorem setHash_phase (h : Word × Word) (s : CoreState) : (setHash h s).phase = s.phase := (rfl)
@[simp] theorem setHash_err (h : Word × Word) (s : CoreState) : (setHash h s).err = s.err := (rfl)
@[simp] theorem setHash_ecause (h : Word × Word) (s : CoreState) : (setHash h s).ecause = s.ecause := (rfl)

@[simp] theorem setLen_seed (n : Word) (s : CoreState) : (setLen n s).seed = s.seed := (rfl)
@[simp] theorem setLen_h1 (n : Word) (s : CoreState) : (setLen n s).h1 = s.h1 := (rfl)
@[simp] theorem setLen_h2 (n : Word) (s : CoreState) : (setLen n s).h2 = s.h2 := (rfl)
@[simp] theorem setLen_len (n : Word) (s : CoreState) : (setLen n s).len = n := (rfl)
@[simp] theorem setLen_carry (n : Word) (s : CoreState) : (setLen n s).carry = s.carry := (rfl)
@[simp] theorem setLen_phase (n : Word) (s : CoreState) : (setLen n s).phase = s.phase := (rfl)
@[simp] theorem setLen_err (n : Word) (s : CoreState) : (setLen n s).err = s.err := (rfl)
@[simp] theorem setLen_ecause (n : Word) (s : CoreState) : (setLen n s).ecause = s.ecause := (rfl)

@[simp] theorem setPhase_seed (p : Phase) (s : CoreState) : (setPhase p s).seed = s.seed := (rfl)
@[simp] theorem setPhase_h1 (p : Phase) (s : CoreState) : (setPhase p s).h1 = s.h1 := (rfl)
@[simp] theorem setPhase_h2 (p : Phase) (s : CoreState) : (setPhase p s).h2 = s.h2 := (rfl)
@[simp] theorem setPhase_len (p : Phase) (s : CoreState) : (setPhase p s).len = s.len := (rfl)
@[simp] theorem setPhase_carry (p : Phase) (s : CoreState) : (setPhase p s).carry = s.carry := (rfl)
@[simp] theorem setPhase_phase (p : Phase) (s : CoreState) : (setPhase p s).phase = p := (rfl)
@[simp] theorem setPhase_err (p : Phase) (s : CoreState) : (setPhase p s).err = s.err := (rfl)
@[simp] theorem setPhase_ecause (p : Phase) (s : CoreState) : (setPhase p s).ecause = s.ecause := (rfl)

@[simp] theorem memWrite_seed (s : CoreState) (a : Nat) (v : Byte) (h : a < 16) : (s.memWrite a v h).seed = s.seed := (rfl)
@[simp] theorem memWrite_h1 (s : CoreState) (a : Nat) (v : Byte) (h : a < 16) : (s.memWrite a v h).h1 = s.h1 := (rfl)
@[simp] theorem memWrite_h2 (s : CoreState) (a : Nat) (v : Byte) (h : a < 16) : (s.memWrite a v h).h2 = s.h2 := (rfl)
@[simp] theorem memWrite_len (s : CoreState) (a : Nat) (v : Byte) (h : a < 16) : (s.memWrite a v h).len = s.len := (rfl)
@[simp] theorem memWrite_carry (s : CoreState) (a : Nat) (v : Byte) (h : a < 16) : (s.memWrite a v h).carry = Memory.write s.carry a v := (rfl)
@[simp] theorem memWrite_phase (s : CoreState) (a : Nat) (v : Byte) (h : a < 16) : (s.memWrite a v h).phase = s.phase := (rfl)
@[simp] theorem memWrite_err (s : CoreState) (a : Nat) (v : Byte) (h : a < 16) : (s.memWrite a v h).err = s.err := (rfl)
@[simp] theorem memWrite_ecause (s : CoreState) (a : Nat) (v : Byte) (h : a < 16) : (s.memWrite a v h).ecause = s.ecause := (rfl)

/-! The port and the core are apart: what an operation on the port leaves of the core, and the other way round, in one lemma. -/

@[simp] theorem answer_toCoreState (r : CoreState × Response) (s : State) : (answer r s).toCoreState = r.1 := (rfl)
@[simp] theorem answer_port_pending (r : CoreState × Response) (s : State) : (answer r s).port.pending = s.port.pending := (rfl)
@[simp] theorem answer_port_response (r : CoreState × Response) (s : State) : (answer r s).port.response = some r.2 := (rfl)
@[simp] theorem answer_port_draws (r : CoreState × Response) (s : State) : (answer r s).port.draws = s.port.draws := (rfl)

@[simp] theorem takeEvent_toCoreState (es : List HostEvent) (s : State) : (takeEvent es s).toCoreState = s.toCoreState := (rfl)
@[simp] theorem takeEvent_port_pending (es : List HostEvent) (s : State) : (takeEvent es s).port.pending = es := (rfl)
@[simp] theorem takeEvent_port_response (es : List HostEvent) (s : State) :
    (takeEvent es s).port.response = s.port.response := (rfl)
@[simp] theorem takeEvent_port_draws (es : List HostEvent) (s : State) :
    (takeEvent es s).port.draws = s.port.draws + 1 := (rfl)

@[simp] theorem presentFirst_toCoreState (e : HostEvent) (s : State) : (presentFirst e s).toCoreState = s.toCoreState := (rfl)
@[simp] theorem presentFirst_port_pending (e : HostEvent) (s : State) :
    (presentFirst e s).port.pending = e :: s.port.pending := (rfl)
@[simp] theorem presentFirst_port_response (e : HostEvent) (s : State) :
    (presentFirst e s).port.response = s.port.response := (rfl)
@[simp] theorem presentFirst_port_draws (e : HostEvent) (s : State) :
    (presentFirst e s).port.draws = s.port.draws := (rfl)

@[simp] theorem applyReset_toCoreState (v : Seed) (s : State) : (applyReset v s).toCoreState = CoreState.reset v := (rfl)
@[simp] theorem applyReset_port_pending (v : Seed) (s : State) : (applyReset v s).port.pending = s.port.pending := (rfl)
@[simp] theorem applyReset_port_response (v : Seed) (s : State) : (applyReset v s).port.response = none := (rfl)
@[simp] theorem applyReset_port_draws (v : Seed) (s : State) : (applyReset v s).port.draws = s.port.draws := (rfl)

@[simp] theorem reset_seed (v : Seed) : (CoreState.reset v).seed = v := (rfl)
@[simp] theorem reset_h1 (v : Seed) : (CoreState.reset v).h1 = 0 := (rfl)
@[simp] theorem reset_h2 (v : Seed) : (CoreState.reset v).h2 = 0 := (rfl)
@[simp] theorem reset_len (v : Seed) : (CoreState.reset v).len = 0 := (rfl)
@[simp] theorem reset_carry (v : Seed) : (CoreState.reset v).carry = [] := (rfl)
@[simp] theorem reset_phase (v : Seed) : (CoreState.reset v).phase = .uninit := (rfl)
@[simp] theorem reset_err (v : Seed) : (CoreState.reset v).err = false := (rfl)
@[simp] theorem reset_ecause (v : Seed) : (CoreState.reset v).ecause = none := (rfl)

@[simp] theorem recordCause_seed (c : Cause) (s : CoreState) : (recordCause c s).seed = s.seed := by
  unfold recordCause; split <;> rfl
@[simp] theorem recordCause_h1 (c : Cause) (s : CoreState) : (recordCause c s).h1 = s.h1 := by
  unfold recordCause; split <;> rfl
@[simp] theorem recordCause_h2 (c : Cause) (s : CoreState) : (recordCause c s).h2 = s.h2 := by
  unfold recordCause; split <;> rfl
@[simp] theorem recordCause_len (c : Cause) (s : CoreState) : (recordCause c s).len = s.len := by
  unfold recordCause; split <;> rfl
@[simp] theorem recordCause_carry (c : Cause) (s : CoreState) : (recordCause c s).carry = s.carry := by
  unfold recordCause; split <;> rfl
@[simp] theorem recordCause_phase (c : Cause) (s : CoreState) : (recordCause c s).phase = s.phase := by
  unfold recordCause; split <;> rfl
@[simp] theorem recordCause_err (c : Cause) (s : CoreState) : (recordCause c s).err = true := by
  unfold recordCause; split <;> simp_all
@[simp] theorem recordCause_ecause (c : Cause) (s : CoreState) : (recordCause c s).ecause = if s.err = true then s.ecause else some c := by
  unfold recordCause; split <;> simp_all

@[simp] theorem storeByte_seed (s : CoreState) (b : Byte) : (storeByte s b).seed = s.seed := (rfl)
@[simp] theorem storeByte_h1 (s : CoreState) (b : Byte) : (storeByte s b).h1 = s.h1 := (rfl)
@[simp] theorem storeByte_h2 (s : CoreState) (b : Byte) : (storeByte s b).h2 = s.h2 := (rfl)
@[simp] theorem storeByte_len (s : CoreState) (b : Byte) : (storeByte s b).len = s.len + 1 := (rfl)
@[simp] theorem storeByte_carry (s : CoreState) (b : Byte) : (storeByte s b).carry = Memory.write s.carry s.cnt b := (rfl)
@[simp] theorem storeByte_phase (s : CoreState) (b : Byte) : (storeByte s b).phase = s.phase := (rfl)
@[simp] theorem storeByte_err (s : CoreState) (b : Byte) : (storeByte s b).err = s.err := (rfl)
@[simp] theorem storeByte_ecause (s : CoreState) (b : Byte) : (storeByte s b).ecause = s.ecause := (rfl)

@[simp] theorem mixCarry_seed (s : CoreState) : (mixCarry s).seed = s.seed := setHash_seed _ _
@[simp] theorem mixCarry_len (s : CoreState) : (mixCarry s).len = s.len := setHash_len _ _
@[simp] theorem mixCarry_carry (s : CoreState) : (mixCarry s).carry = s.carry := setHash_carry _ _
@[simp] theorem mixCarry_phase (s : CoreState) : (mixCarry s).phase = s.phase := setHash_phase _ _
@[simp] theorem mixCarry_err (s : CoreState) : (mixCarry s).err = s.err := setHash_err _ _
@[simp] theorem mixCarry_ecause (s : CoreState) : (mixCarry s).ecause = s.ecause := setHash_ecause _ _

@[simp] theorem absorb_seed (s : CoreState) (b : Byte) : (absorb s b).seed = s.seed := by
  unfold absorb; split <;> simp
@[simp] theorem absorb_phase (s : CoreState) (b : Byte) : (absorb s b).phase = s.phase := by
  unfold absorb; split <;> simp
@[simp] theorem absorb_err (s : CoreState) (b : Byte) : (absorb s b).err = s.err := by
  unfold absorb; split <;> simp
@[simp] theorem absorb_ecause (s : CoreState) (b : Byte) : (absorb s b).ecause = s.ecause := by
  unfold absorb; split <;> simp
@[simp] theorem absorb_len (s : CoreState) (b : Byte) : (absorb s b).len = s.len + 1 := by
  unfold absorb; split <;> simp
@[simp] theorem absorb_carry (s : CoreState) (b : Byte) : (absorb s b).carry = Memory.write s.carry s.cnt b := by
  unfold absorb; split <;> simp

@[simp] theorem absorbAll_nil (s : CoreState) : absorbAll s [] = s := rfl
@[simp] theorem absorbAll_cons (s : CoreState) (b : Byte) (bs : List Byte) :
    absorbAll s (b :: bs) = absorbAll (absorb s b) bs := (rfl)
theorem absorbAll_append (s : CoreState) (xs ys : List Byte) :
    absorbAll s (xs ++ ys) = absorbAll (absorbAll s xs) ys := List.foldl_append ..
@[simp] theorem absorbAll_seed (s : CoreState) (bs : List Byte) : (absorbAll s bs).seed = s.seed := by
  induction bs generalizing s with
  | nil => rfl
  | cons b bs ih => simp [ih]
@[simp] theorem absorbAll_phase (s : CoreState) (bs : List Byte) : (absorbAll s bs).phase = s.phase := by
  induction bs generalizing s with
  | nil => rfl
  | cons b bs ih => simp [ih]
@[simp] theorem absorbAll_err (s : CoreState) (bs : List Byte) : (absorbAll s bs).err = s.err := by
  induction bs generalizing s with
  | nil => rfl
  | cons b bs ih => simp [ih]
@[simp] theorem absorbAll_ecause (s : CoreState) (bs : List Byte) : (absorbAll s bs).ecause = s.ecause := by
  induction bs generalizing s with
  | nil => rfl
  | cons b bs ih => simp [ih]
@[simp] theorem absorbAll_len (s : CoreState) (bs : List Byte) : (absorbAll s bs).len = s.len + BitVec.ofNat 64 bs.length := by
  induction bs generalizing s with
  | nil => simp
  | cons b bs ih => simp [ih, BitVec.ofNat_add, BitVec.add_assoc, BitVec.add_comm 1#64]

@[simp] theorem raiseCause_fst (c : Cause) (s : CoreState) : (raiseCause c s).1 = recordCause c s := (rfl)
@[simp] theorem raiseCause_snd (c : Cause) (s : CoreState) : (raiseCause c s).2 = .err c := (rfl)

@[simp] theorem runInit_fst (s : CoreState) :
    (runInit s).1 = setPhase .ready (setLen 0 (setHash (seedWord s.seed, seedWord s.seed) s)) := (rfl)
@[simp] theorem runInit_snd (s : CoreState) : (runInit s).2 = .ok := (rfl)

@[simp] theorem finalize_snd (s : CoreState) :
    (finalize s).2 = .okDigest (digest (finalHash s).1 (finalHash s).2) := (rfl)
@[simp] theorem finalize_seed (s : CoreState) : (finalize s).1.seed = s.seed :=
  (setPhase_seed _ _).trans (setHash_seed _ _)
@[simp] theorem finalize_len (s : CoreState) : (finalize s).1.len = s.len :=
  (setPhase_len _ _).trans (setHash_len _ _)
@[simp] theorem finalize_carry (s : CoreState) : (finalize s).1.carry = s.carry :=
  (setPhase_carry _ _).trans (setHash_carry _ _)
@[simp] theorem finalize_err (s : CoreState) : (finalize s).1.err = s.err :=
  (setPhase_err _ _).trans (setHash_err _ _)
@[simp] theorem finalize_ecause (s : CoreState) : (finalize s).1.ecause = s.ecause :=
  (setPhase_ecause _ _).trans (setHash_ecause _ _)
@[simp] theorem finalize_h1 (s : CoreState) : (finalize s).1.h1 = (finalHash s).1 :=
  (setPhase_h1 _ _).trans (setHash_h1 _ _)
@[simp] theorem finalize_h2 (s : CoreState) : (finalize s).1.h2 = (finalHash s).2 :=
  (setPhase_h2 _ _).trans (setHash_h2 _ _)
@[simp] theorem finalize_phase (s : CoreState) : (finalize s).1.phase = .done := setPhase_phase _ _

end Sys2Proof.Machine
end

