-- ==== Sys2Proof/Laws/Absorb.lean ====
section
/-! SUPPORT. What absorbing bytes does to the cells, the fill level, the pending bytes and the accumulators. -/

namespace Sys2Proof.Machine

theorem cnt_eq_mod (s : CoreState) : s.cnt = s.len.toNat % 16 := by
  simp [CoreState.cnt, BitVec.extractLsb'_toNat]

/-- The fill level depends on the length counter only. -/
theorem cnt_congr {s t : CoreState} (h : s.len = t.len) : s.cnt = t.cnt := by rw [CoreState.cnt, CoreState.cnt, h]

theorem cells_length (s : CoreState) (a n : Nat) : (s.cells a n).length = n := by simp [CoreState.cells]

theorem pendingBytes_length (s : CoreState) : s.pendingBytes.length = s.cnt := cells_length s 0 s.cnt

theorem cells_zero (s : CoreState) (a : Nat) : s.cells a 0 = [] := rfl

theorem cells_succ (s : CoreState) (a n : Nat) : s.cells a (n + 1) = s.cells a n ++ [s.cell (a + n)] := by
  simp [CoreState.cells, List.range_succ]

theorem cells_append (s : CoreState) (a n m : Nat) : s.cells a (n + m) = s.cells a n ++ s.cells (a + n) m := by
  induction m with
  | zero => simp [cells_zero]
  | succ m ih => rw [← Nat.add_assoc, cells_succ, ih, cells_succ, List.append_assoc, Nat.add_assoc]

theorem cells_congr {s t : CoreState} {a n : Nat} (h : ∀ i < n, s.cell (a + i) = t.cell (a + i)) :
    s.cells a n = t.cells a n :=
  List.map_congr_left fun i hi => h i (List.mem_range.1 hi)

theorem cells_take (s : CoreState) (a n k : Nat) (h : k ≤ n) : (s.cells a n).take k = s.cells a k := by
  obtain ⟨m, rfl⟩ := Nat.exists_eq_add_of_le h
  rw [cells_append, List.take_left' (cells_length s a k)]

theorem cells_drop (s : CoreState) (a n k : Nat) (h : k ≤ n) : (s.cells a n).drop k = s.cells (a + k) (n - k) := by
  obtain ⟨m, rfl⟩ := Nat.exists_eq_add_of_le h
  rw [cells_append, List.drop_left' (cells_length s a k), Nat.add_sub_cancel_left]

@[simp] theorem cell_storeByte (s : CoreState) (b : Byte) (i : Nat) :
    (storeByte s b).cell i = if i = s.cnt then b else s.cell i := by
  simp [CoreState.cell, memory_read_write]

/-- One byte goes to the cell at the fill level, and to no other. -/
@[simp] theorem cell_absorb (s : CoreState) (b : Byte) (i : Nat) :
    (absorb s b).cell i = if i = s.cnt then b else s.cell i := by
  simp [CoreState.cell, memory_read_write]

@[simp] theorem cnt_absorb (s : CoreState) (b : Byte) : (absorb s b).cnt = (s.cnt + 1) % 16 := by
  rw [cnt_eq_mod, cnt_eq_mod, absorb_len, BitVec.toNat_add]; simp

/-- After the byte that completes no block, the pending bytes have grown by it. -/
theorem pendingBytes_absorb (s : CoreState) (b : Byte) (h : s.cnt < 15) :
    (absorb s b).pendingBytes = s.pendingBytes ++ [b] := by
  have hc : (absorb s b).cnt = s.cnt + 1 := by rw [cnt_absorb]; omega
  rw [CoreState.pendingBytes, hc, cells_succ]
  simp only [Nat.zero_add, cell_absorb, if_true, CoreState.pendingBytes]
  congr 1
  exact cells_congr fun i hi => by simp [Nat.ne_of_lt hi]

/-- After the 16th byte of a block nothing is pending. -/
theorem pendingBytes_absorb_full (s : CoreState) (b : Byte) (h : s.cnt = 15) : (absorb s b).pendingBytes = [] := by
  have hc : (absorb s b).cnt = 0 := by rw [cnt_absorb, h]
  rw [CoreState.pendingBytes, hc, cells_zero]

theorem hash_absorb (s : CoreState) (b : Byte) (h : s.cnt < 15) :
    (absorb s b).h1 = s.h1 ∧ (absorb s b).h2 = s.h2 := by
  have : s.cnt ≠ 15 := by omega
  simp [absorb, this]

/-- The 16th byte of a block mixes the 15 pending bytes and itself. -/
theorem hash_absorb_full (s : CoreState) (b : Byte) (h : s.cnt = 15) :
    ((absorb s b).h1, (absorb s b).h2) =
      blockmix s.h1 s.h2 (le ((s.pendingBytes ++ [b]).take 8)) (le ((s.pendingBytes ++ [b]).drop 8)) := by
  have hp : s.pendingBytes ++ [b] = (storeByte s b).cells 0 16 := by
    rw [CoreState.pendingBytes, h, show 16 = 15 + 1 from rfl, cells_succ (storeByte s b) 0 15]
    have h15 : (storeByte s b).cell (0 + 15) = b := by simp [h]
    rw [h15]
    congr 1
    exact cells_congr fun i hi => by rw [cell_storeByte, if_neg (by omega)]
  rw [hp, cells_take _ _ _ _ (by decide), cells_drop _ _ _ _ (by decide), absorb, if_pos h, mixCarry]
  simp [CoreState.memRead]

/-- Fewer bytes than complete the block: they are pending, and the accumulators are untouched. -/
theorem absorbAll_short (s : CoreState) (bs : List Byte) (h : s.cnt + bs.length ≤ 15) :
    (absorbAll s bs).pendingBytes = s.pendingBytes ++ bs ∧ (absorbAll s bs).h1 = s.h1 ∧ (absorbAll s bs).h2 = s.h2 := by
  induction bs generalizing s with
  | nil => simp
  | cons b bs ih =>
    simp only [List.length_cons] at h
    have hlt : s.cnt < 15 := by omega
    have hc : (absorb s b).cnt = s.cnt + 1 := by rw [cnt_absorb]; omega
    obtain ⟨hp, h1, h2⟩ := ih (absorb s b) (by omega)
    obtain ⟨g1, g2⟩ := hash_absorb s b hlt
    rw [absorbAll_cons, hp, h1, h2, pendingBytes_absorb s b hlt, g1, g2]
    simp

theorem absorbAll_cnt (s : CoreState) (bs : List Byte) : (absorbAll s bs).cnt = (s.cnt + bs.length) % 16 := by
  rw [cnt_eq_mod, cnt_eq_mod, absorbAll_len, BitVec.toNat_add]
  simp only [BitVec.toNat_ofNat]; omega

/-- Exactly the bytes that complete the block: it is mixed, and nothing is pending. -/
theorem absorbAll_full (s : CoreState) (bs : List Byte) (h : s.cnt + bs.length = 16) :
    (absorbAll s bs).pendingBytes = [] ∧ ((absorbAll s bs).h1, (absorbAll s bs).h2) =
      blockmix s.h1 s.h2 (le ((s.pendingBytes ++ bs).take 8)) (le ((s.pendingBytes ++ bs).drop 8)) := by
  have hlt := s.cnt_lt
  obtain ⟨cs, b, rfl⟩ : ∃ cs b, bs = cs ++ [b] :=
    ⟨bs.dropLast, bs.getLast (by intro e; simp [e] at h; omega), (List.dropLast_append_getLast _).symm⟩
  simp only [List.length_append, List.length_singleton] at h
  obtain ⟨hp, h1, h2⟩ := absorbAll_short s cs (by omega)
  have hc : (absorbAll s cs).cnt = 15 := by rw [absorbAll_cnt]; omega
  rw [absorbAll_append, absorbAll_cons, absorbAll_nil, hash_absorb_full _ b hc, pendingBytes_absorb_full _ b hc,
    hp, h1, h2, List.append_assoc]
  exact ⟨rfl, rfl⟩

/-- Absorbing keeps the carry buffer's canonical form. -/
theorem absorbAll_wf (s : CoreState) (bs : List Byte) (h : Memory.wf s.carry = true) :
    Memory.wf (absorbAll s bs).carry = true := by
  induction bs generalizing s with
  | nil => exact h
  | cons b bs ih =>
    rw [absorbAll_cons]
    exact ih _ (by rw [absorb_carry]; exact memory_write_wf _ _ _ s.cnt_lt h)

theorem operandBytes_length (din : Operand) (nb : Nat) : (operandBytes din nb).length = nb := by
  simp [operandBytes]

/-- Bytes that reach 16 with those pending: the first 16 in hand are mixed, the rest is pending. -/
theorem absorbAll_long (s : CoreState) (bs : List Byte) (h : 16 ≤ s.cnt + bs.length) (h2 : bs.length ≤ 16) :
    (absorbAll s bs).pendingBytes = (s.pendingBytes ++ bs).drop 16 ∧ 
    ((absorbAll s bs).h1, (absorbAll s bs).h2) = blockmix s.h1 s.h2 (le ((s.pendingBytes ++ bs).take 8)) (le (((s.pendingBytes ++ bs).drop 8).take 8)) := by
  have hlt := s.cnt_lt
  have hl := pendingBytes_length s
  set xs := bs.take (16 - s.cnt)
  set ys := bs.drop (16 - s.cnt)
  have hxy : bs = xs ++ ys := (List.take_append_drop _ _).symm
  have hx : xs.length = 16 - s.cnt := by simp [xs]; omega
  have hy : ys.length ≤ 15 := by simp [ys]; omega
  clear_value xs ys
  obtain ⟨p, q⟩ := absorbAll_full s xs (by omega)
  have hc : (absorbAll s xs).cnt = 0 := by rw [absorbAll_cnt]; omega
  obtain ⟨p', q1, q2⟩ := absorbAll_short (absorbAll s xs) ys (by omega)
  have hh : s.pendingBytes ++ bs = (s.pendingBytes ++ xs) ++ ys := by rw [hxy, List.append_assoc]
  have h16 : (s.pendingBytes ++ xs).length = 16 := by simp [hl, hx]; omega
  rw [hh, hxy, absorbAll_append, p', q1, q2, q, p]
  generalize s.pendingBytes ++ xs = ps at *
  constructor
  · rw [List.drop_left' h16]; simp
  · rw [List.take_append_of_le_length (l₁ := ps) (by omega), List.drop_append_of_le_length (by omega),
      List.take_append_of_le_length (l₁ := ps.drop 8) (by simp [h16]), List.take_of_length_le (l := ps.drop 8) (by simp [h16])]

/-- Cells no absorbed byte goes to read as before. -/
theorem absorbAll_cell_other (s : CoreState) (bs : List Byte) (a : Nat) (h : ∀ i < bs.length, a ≠ (s.cnt + i) % 16) : (absorbAll s bs).cell a = s.cell a := by
  induction bs generalizing s with
  | nil => rfl
  | cons b bs ih =>
    have hlt := s.cnt_lt
    rw [absorbAll_cons, ih, cell_absorb, if_neg]
    · intro e; exact h 0 (by simp) (by omega)
    · intro i h'; rw [cnt_absorb]; have := h (i+1) (by simp; omega); omega

/-- Byte `i` of at most 16 goes to cell CNT + i, modulo 16. -/
theorem absorbAll_cell_at (s : CoreState) (bs : List Byte) (h : bs.length ≤ 16) (i) (hi : i < bs.length) : (absorbAll s bs).cell ((s.cnt + i) % 16) = bs[i] := by
  induction bs generalizing s i with
  | nil => simp at hi
  | cons b bs ih =>
    have hlt := s.cnt_lt
    simp only [List.length_cons] at h hi
    rw [absorbAll_cons]
    cases i with
    | zero =>
      rw [Nat.add_zero, Nat.mod_eq_of_lt hlt, absorbAll_cell_other]
      · simp
      · intro i hi; rw [cnt_absorb]; omega
    | succ i =>
      rw [List.getElem_cons_succ, ← ih (absorb s b) (by omega) i (by omega)]; congr 1; rw [cnt_absorb]; omega

end Sys2Proof.Machine
end

