-- ==== Sys2Proof/Laws/Datapath.lean ====
section
/-! SUPPORT. Byte assembly bit by bit and byte by byte. -/

namespace Sys2Proof.Machine

theorem shiftedByte_getLsbD (b : Byte) (k i : Nat) (hi : i < 64) :
    (b.setWidth 64 <<< (8 * k)).getLsbD i = (decide (k = i / 8) && b.getLsbD (i % 8)) := by
  rw [BitVec.getLsbD_shiftLeft, BitVec.getLsbD_setWidth]
  by_cases h2 : k = i / 8
  · have e : i - 8 * k = i % 8 := by omega
    have h : ¬ i < 8 * k := by omega
    have h' : i % 8 < 64 := by omega
    rw [e]
    simp only [hi, h, h2.symm, h', decide_true, decide_false, Bool.not_false, Bool.true_and]
  · by_cases h : i < 8 * k
    · simp [h, h2]
    · have : b.getLsbD (i - 8 * k) = false := BitVec.getLsbD_of_ge _ _ (by omega)
      simp [h2, this]

/-- Bit `i` of a sum of shifted bytes is bit `i mod 8` of the byte that lands there. -/
theorem leFrom_getLsbD (bs : List Byte) (k i : Nat) (hk : k + bs.length ≤ 8) (hi : i < 64) :
    (leFrom k bs).getLsbD i = (decide (k ≤ i / 8) && (bs.getD (i / 8 - k) 0).getLsbD (i % 8)) := by
  induction bs generalizing k i with
  | nil => simp [leFrom]
  | cons b bs ih =>
    simp only [List.length_cons] at hk
    have hor : leFrom k (b :: bs) = (b.setWidth 64 <<< (8 * k)) ||| leFrom (k + 1) bs := by
      refine BitVec.add_eq_or_of_and_eq_zero _ _ (BitVec.eq_of_getLsbD_eq fun j hj => ?_)
      rw [BitVec.getLsbD_and, shiftedByte_getLsbD b k j hj, ih (k + 1) j (by omega) hj]
      by_cases h : k = j / 8
      · have : ¬ k + 1 ≤ j / 8 := by omega
        simp [this]
      · simp [h]
    rw [hor, BitVec.getLsbD_or, shiftedByte_getLsbD b k i hi, ih (k + 1) i (by omega) hi]
    by_cases h : k = i / 8
    · have : ¬ k + 1 ≤ i / 8 := by omega
      simp [h]
    · by_cases h' : k ≤ i / 8
      · obtain ⟨m, hm⟩ : ∃ m, i / 8 - k = m + 1 := ⟨i / 8 - k - 1, by omega⟩
        have e : i / 8 - (k + 1) = m := by omega
        have h'' : k + 1 ≤ i / 8 := by omega
        rw [hm, e]; simp [h, h', h'']
      · have h'' : ¬ k + 1 ≤ i / 8 := by omega
        simp [h, h', h'']

theorem le_getLsbD (bs : List Byte) (i : Nat) (hk : bs.length ≤ 8) (hi : i < 64) :
    (le bs).getLsbD i = (bs.getD (i / 8) 0).getLsbD (i % 8) := by
  rw [le, leFrom_getLsbD bs 0 i (by omega) hi]; simp

/-- Byte `o` of an assembled word is byte `o` of the string, zero beyond its end. -/
theorem le_byte (bs : List Byte) (o : Nat) (hk : bs.length ≤ 8) (ho : o < 8) :
    (le bs).extractLsb' (8 * o) 8 = bs.getD o 0 := by
  refine BitVec.eq_of_getLsbD_eq fun i hi => ?_
  rw [BitVec.getLsbD_extractLsb', le_getLsbD bs _ hk (by omega)]
  have e1 : (8 * o + i) / 8 = o := by omega
  have e2 : (8 * o + i) % 8 = i := by omega
  rw [e1, e2]; simp [hi]

/-- Two words with the same eight bytes are the same word. -/
theorem word_ext {v w : Word} (h : ∀ o < 8, v.extractLsb' (8 * o) 8 = w.extractLsb' (8 * o) 8) : v = w := by
  refine BitVec.eq_of_getLsbD_eq fun i hi => ?_
  have := congrArg (fun b : Byte => b.getLsbD (i % 8)) (h (i / 8) (by omega))
  simp only [BitVec.getLsbD_extractLsb'] at this
  have e : 8 * (i / 8) + i % 8 = i := by omega
  have e2 : i % 8 < 8 := by omega
  simpa [e, e2] using this

theorem le64_length (v : Word) : (le64 v).length = 8 := by simp [le64]

theorem le64_getD (v : Word) (o : Nat) (ho : o < 8) : (le64 v).getD o 0 = v.extractLsb' (8 * o) 8 := by
  simp [le64, ho]

end Sys2Proof.Machine
end

