-- ==== Sys2Proof/Laws/Step.lean ====
section
/-! SUPPORT. What each meaning and a step can do, said once: the equations the proofs cite instead of unfolding them. -/

namespace Sys2Proof.Machine

/-- Rejecting, answered, is one record, whatever the error record holds. -/
theorem answer_raiseCause (c : Cause) (s : State) : answer (raiseCause c s.toCoreState) s = rejected c s := by
  obtain ⟨⟨_, _, _, _, _, _, err, _⟩, _⟩ := s
  cases err <;> rfl

theorem runUpdate_count (nb : Nat) (din : Operand) (s : CoreState) (h : 16 < nb) :
    runUpdate nb din s = raiseCause .count s := by
  simp [runUpdate, countCause, maxCount, h]

theorem runUpdate_phase (nb : Nat) (din : Operand) (s : CoreState) (h : nb ≤ 16) {c : Cause}
    (hc : phaseCause s.phase = some c) : runUpdate nb din s = raiseCause c s := by
  simp [runUpdate, countCause, maxCount, Nat.not_lt.2 h, hc]

theorem runUpdate_ready (nb : Nat) (din : Operand) (s : CoreState) (h : nb ≤ 16) (hp : s.phase = .ready) :
    runUpdate nb din s = (absorbAll s (operandBytes din nb), .ok) := by
  simp [runUpdate, countCause, maxCount, Nat.not_lt.2 h, hp, phaseCause]

theorem runFinal_phase (s : CoreState) {c : Cause} (hc : phaseCause s.phase = some c) :
    runFinal s = raiseCause c s := by
  simp [runFinal, hc]

theorem runFinal_ready (s : CoreState) (hp : s.phase = .ready) : runFinal s = finalize s := by
  simp [runFinal, hp, phaseCause]

theorem exec_init (s : State) : exec .init s = .next (answer (runInit s.toCoreState) s) := rfl

theorem exec_update (nb : Nat) (din : Operand) (s : State) :
    exec (.update nb din) s = .next (answer (runUpdate nb din s.toCoreState) s) := rfl

theorem exec_final (s : State) : exec .final s = .next (answer (runFinal s.toCoreState) s) := rfl

theorem exec_update_count (nb : Nat) (din : Operand) (s : State) (h : 16 < nb) :
    exec (.update nb din) s = .next (answer (raiseCause .count s.toCoreState) s) := by
  rw [exec_update, runUpdate_count nb din _ h]

theorem exec_update_phase (nb : Nat) (din : Operand) (s : State) (h : nb ≤ 16) {c : Cause}
    (hc : phaseCause s.phase = some c) : exec (.update nb din) s = .next (answer (raiseCause c s.toCoreState) s) := by
  rw [exec_update, runUpdate_phase nb din _ h hc]

theorem exec_update_ready (nb : Nat) (din : Operand) (s : State) (h : nb ≤ 16) (hp : s.phase = .ready) :
    exec (.update nb din) s = .next (answer (absorbAll s.toCoreState (operandBytes din nb), .ok) s) := by
  rw [exec_update, runUpdate_ready nb din _ h hp]

theorem exec_final_phase (s : State) {c : Cause} (hc : phaseCause s.phase = some c) :
    exec .final s = .next (answer (raiseCause c s.toCoreState) s) := by
  rw [exec_final, runFinal_phase _ hc]

theorem exec_final_ready (s : State) (hp : s.phase = .ready) :
    exec .final s = .next (answer (finalize s.toCoreState) s) := by
  rw [exec_final, runFinal_ready _ hp]

/-- Everything a command can do: INIT's effect, a rejection, an absorbed beat, or the finalization. -/
theorem exec_cases (i : Instr) (s : State) :
    (i = .init ∧ exec i s = .next (answer (runInit s.toCoreState) s)) ∨
    (∃ c, exec i s = .next (answer (raiseCause c s.toCoreState) s)) ∨
    (∃ nb din, i = .update nb din ∧ nb ≤ 16 ∧ s.phase = .ready ∧
      exec i s = .next (answer (absorbAll s.toCoreState (operandBytes din nb), .ok) s)) ∨
    (i = .final ∧ s.phase = .ready ∧ exec i s = .next (answer (finalize s.toCoreState) s)) := by
  cases i with
  | init => exact .inl ⟨rfl, rfl⟩
  | update nb din =>
    by_cases h : nb ≤ 16
    · cases hp : s.phase
      · exact .inr (.inl ⟨_, exec_update_phase nb din s h (by rw [hp]; rfl)⟩)
      · exact .inr (.inr (.inl ⟨nb, din, rfl, h, rfl, exec_update_ready nb din s h hp⟩))
      · exact .inr (.inl ⟨_, exec_update_phase nb din s h (by rw [hp]; rfl)⟩)
    · exact .inr (.inl ⟨_, exec_update_count nb din s (Nat.lt_of_not_le h)⟩)
  | final =>
    cases hp : s.phase
    · exact .inr (.inl ⟨_, exec_final_phase s (by rw [hp]; rfl)⟩)
    · exact .inr (.inr (.inr ⟨rfl, rfl, exec_final_ready s hp⟩))
    · exact .inr (.inl ⟨_, exec_final_phase s (by rw [hp]; rfl)⟩)

theorem fetch_nil (s : State) (h : s.port.pending = []) : fetch s = none := by simp [fetch, h]

theorem fetch_cons (s : State) (e : HostEvent) (es : List HostEvent) (h : s.port.pending = e :: es) :
    fetch s = some (e, takeEvent es s) := by simp [fetch, h]

theorem step_instr (s : State) (c : Command) (es : List HostEvent) (i : Instr)
    (h : s.port.pending = .command c :: es) (hd : decode c = .instr i) : step s = exec i (takeEvent es s) := by
  simp [step, fetch_cons s _ _ h, hd]

theorem step_reserved (s : State) (c : Command) (es : List HostEvent) (r : Reserved)
    (h : s.port.pending = .command c :: es) (hd : decode c = .reserved r) :
    step s = .next (answer (raiseCause .illegal s.toCoreState) (takeEvent es s)) := by
  simp [step, fetch_cons s _ _ h, hd]

theorem step_resetEvent (s : State) (v : Seed) (es : List HostEvent) (h : s.port.pending = .reset v :: es) :
    step s = .next (applyReset v (takeEvent es s)) := by
  simp [step, fetch_cons s _ _ h]

theorem step_idle (s : State) (h : s.port.pending = []) : step s = .next s := by
  simp [step, fetch_nil s h]

/-- Everything a step can do. -/
theorem step_cases (s : State) :
    (s.port.pending = [] ∧ step s = .next s) ∨
    (∃ v es, s.port.pending = .reset v :: es ∧ step s = .next (applyReset v (takeEvent es s))) ∨
    (∃ c es i, s.port.pending = .command c :: es ∧ decode c = .instr i ∧ step s = exec i (takeEvent es s)) ∨
    (∃ c es r, s.port.pending = .command c :: es ∧ decode c = .reserved r ∧
      step s = .next (answer (raiseCause .illegal s.toCoreState) (takeEvent es s))) := by
  match h : s.port.pending with
  | [] => exact .inl ⟨rfl, step_idle s h⟩
  | .reset v :: es => exact .inr (.inl ⟨v, es, rfl, step_resetEvent s v es h⟩)
  | .command c :: es =>
    match hd : decode c with
    | .instr i => exact .inr (.inr (.inl ⟨c, es, i, rfl, hd, step_instr s c es i h hd⟩))
    | .reserved r => exact .inr (.inr (.inr ⟨c, es, r, rfl, hd, step_reserved s c es r h hd⟩))

end Sys2Proof.Machine
end

