-- ==== Sys2Proof/Laws/Encoding.lean ====
section
/-! SUPPORT. What decoding answers for each of the 256 command words, how the lanes of a packed operand read back, and, from
the two, everything a pending command can do. -/

namespace Sys2Proof

/-- The data operand only rides along: which command a word decodes to is decided by the word. -/
theorem decode_word (w : CommandWord) (din : Operand) :
    decode ⟨w, din⟩ =
      (match decode ⟨w, 0⟩ with
        | .instr (.update nb _) => .instr (.update nb din)
        | x => x) := by
  unfold decode Command.op Command.nb Command.rsv
  simp only
  split_ifs <;> rfl

/-- The word is reserved by rule R51, read from its bits. -/
def wordIsReserved (w : CommandWord) : Prop :=
  w.getLsbD 7 = true ∨ w.extractLsb' 0 2 = 0b00#2 ∨
    ((w.extractLsb' 0 2 = 0b01#2 ∨ w.extractLsb' 0 2 = 0b11#2) ∧ w.extractLsb' 2 5 ≠ 0#5)

/-- One word checked against its decoding, as a Boolean to run over all 256. -/
def wordAgrees (w : CommandWord) : Bool :=
  match decode ⟨w, 0⟩ with
  | .instr .init => w == 1#8
  | .instr .final => w == 3#8
  | .instr (.update nb _) => decide (nb < 32) && BitVec.ofNat 8 (2 + 4 * nb) == w
  | .reserved _ => w.getLsbD 7 || w.extractLsb' 0 2 == 0#2 ||
      ((w.extractLsb' 0 2 == 0b01#2 || w.extractLsb' 0 2 == 0b11#2) && w.extractLsb' 2 5 != 0#5)

set_option maxRecDepth 10000 in
theorem wordAgrees_all : ∀ w : CommandWord, wordAgrees w = true := by decide

/-- Everything decoding can answer. -/
theorem decode_cases (w : CommandWord) (din : Operand) :
    (decode ⟨w, din⟩ = .instr .init ∧ w = 1#8) ∨ (decode ⟨w, din⟩ = .instr .final ∧ w = 3#8) ∨
    (∃ nb, decode ⟨w, din⟩ = .instr (.update nb din) ∧ nb < 32 ∧ w = BitVec.ofNat 8 (2 + 4 * nb)) ∨
    (∃ r, decode ⟨w, din⟩ = .reserved r ∧ wordIsReserved w) := by
  have k := wordAgrees_all w
  unfold wordAgrees at k
  unfold wordIsReserved
  rw [decode_word]
  split at k <;> rename_i h <;> simp_all [or_assoc]

set_option maxRecDepth 10000 in
/-- The fields of the word of `UPDATE nb`. -/
theorem updateWord_fields : ∀ nb : Fin 32,
    BitVec.ofNat 8 (2 + 4 * nb.val) ≠ 1#8 ∧ BitVec.ofNat 8 (2 + 4 * nb.val) ≠ 3#8 ∧
    (BitVec.ofNat 8 (2 + 4 * nb.val)).extractLsb' 0 2 = 0b10#2 ∧
    ((BitVec.ofNat 8 (2 + 4 * nb.val)).extractLsb' 2 5).toNat = nb.val ∧
    (BitVec.ofNat 8 (2 + 4 * nb.val)).getLsbD 7 = false := by decide

/-- Bit `i` of a packed operand is bit `i mod 8` of the byte in lane `i / 8`. -/
theorem packLanes_getLsbD (bs : List Byte) (i : Nat) (hi : i < 128) :
    (packLanes bs).getLsbD i = (bs.getD (i / 8) 0).getLsbD (i % 8) := by
  induction bs generalizing i with
  | nil => simp [packLanes]
  | cons b bs ih =>
    rw [packLanes, BitVec.getLsbD_or, BitVec.getLsbD_setWidth, BitVec.getLsbD_shiftLeft]
    by_cases h : i < 8
    · have e1 : i / 8 = 0 := by omega
      have e2 : i % 8 = i := by omega
      simp [h, hi, e1, e2]
    · obtain ⟨m, hm⟩ : ∃ m, i / 8 = m + 1 := ⟨i / 8 - 1, by omega⟩
      have e1 : (i - 8) / 8 = m := by omega
      have e2 : (i - 8) % 8 = i % 8 := by omega
      have e3 : b.getLsbD i = false := BitVec.getLsbD_of_ge _ _ (by omega)
      rw [ih (i - 8) (by omega), e1, e2, hm, e3]; simp [h, hi]

/-- Lane `i` of a packed operand is byte `i` of the string, zero beyond its end. -/
theorem packLanes_lane (bs : List Byte) (i : Nat) (hb : bs.length ≤ 16) :
    (packLanes bs).extractLsb' (8 * i) 8 = bs.getD i 0 := by
  refine BitVec.eq_of_getLsbD_eq fun k hk => ?_
  rw [BitVec.getLsbD_extractLsb']
  by_cases h : 8 * i + k < 128
  · rw [packLanes_getLsbD _ _ h]
    have e1 : (8 * i + k) / 8 = i := by omega
    have e2 : (8 * i + k) % 8 = k := by omega
    simp [e1, e2, hk]
  · rw [BitVec.getLsbD_of_ge _ _ (by omega)]
    have : bs[i]? = none := List.getElem?_eq_none (by omega)
    simp [List.getD, this]

namespace Machine

/-- The cause of an UPDATE word is that of its count, then that of the phase. -/
theorem causeOf_update (nb : Fin 32) (p : Phase) :
    causeOf (BitVec.ofNat 8 (2 + 4 * nb.val)) p = (countCause nb.val).or (phaseCause p) := by
  obtain ⟨-, -, d, e, f⟩ := updateWord_fields nb
  unfold causeOf countCause phaseCause maxCount
  rw [d, e, f]
  cases p <;> simp <;> split_ifs <;> rfl

theorem causeOf_final (p : Phase) : causeOf 3#8 p = phaseCause p := by cases p <;> decide

theorem causeOf_init (p : Phase) : causeOf 1#8 p = none := by cases p <;> decide

theorem causeOf_reserved (w : CommandWord) (p : Phase) (h : wordIsReserved w) : causeOf w p = some .illegal := by
  unfold causeOf
  rcases h with h | h | h
  · rw [if_pos (Or.inl h)]
  · rw [if_pos (Or.inr h)]
  · split
    · rfl
    · rfl

/-- Everything the next step can do when a command is pending: a rejection with the cause of R115, or the effect of the
command decoded. -/
theorem step_command (s : State) (cmd : Command) (rest : List HostEvent) (h : s.port.pending = .command cmd :: rest) :
    (∃ c, causeOf cmd.cw s.phase = some c ∧ step s = .next (answer (raiseCause c s.toCoreState) (takeEvent rest s)) ∧ cmd.cw ≠ 1#8 ∧
      (s.phase = .ready → cmd.cw ≠ 3#8 ∧ acceptedBytes cmd = [])) ∨
    (causeOf cmd.cw s.phase = none ∧
      ((decode cmd = .instr .init ∧ cmd.cw = 1#8 ∧ step s = exec .init (takeEvent rest s)) ∨
       (s.phase = .ready ∧ ∃ nb, nb ≤ 16 ∧ decode cmd = .instr (.update nb cmd.din) ∧
          cmd.cw = BitVec.ofNat 8 (2 + 4 * nb) ∧ acceptedBytes cmd = operandBytes cmd.din nb ∧
          step s = .next (answer (absorbAll s.toCoreState (operandBytes cmd.din nb), .ok) (takeEvent rest s))) ∨
       (s.phase = .ready ∧ decode cmd = .instr .final ∧ cmd.cw = 3#8 ∧
          step s = .next (answer (finalize s.toCoreState) (takeEvent rest s))))) := by
  have hphase : s.phase = .uninit ∨ s.phase = .ready ∨ s.phase = .done := by cases s.phase <;> simp
  obtain ⟨w, din⟩ := cmd
  obtain ⟨hd, rfl⟩ | ⟨hd, rfl⟩ | ⟨nb, hd, hn, rfl⟩ | ⟨r, hd, hr⟩ := decode_cases w din
  · exact .inr ⟨causeOf_init _, .inl ⟨hd, rfl, step_instr s _ rest _ h hd⟩⟩
  · simp only [causeOf_final]
    have hs := step_instr s _ rest _ h hd
    obtain hp | hp | hp := hphase
    · exact .inl ⟨.uninit, by rw [hp]; rfl, hs.trans (exec_final_phase _ (by rw [takeEvent_toCoreState, hp]; rfl)), by decide,
        by simp [hp]⟩
    · exact .inr ⟨by rw [hp]; rfl, .inr (.inr ⟨hp, hd, trivial, hs.trans (exec_final_ready _ (by simp [hp]))⟩)⟩
    · exact .inl ⟨.finalized, by rw [hp]; rfl, hs.trans (exec_final_phase _ (by rw [takeEvent_toCoreState, hp]; rfl)),
        by decide, by simp [hp]⟩
  · have hs := step_instr s _ rest _ h hd
    obtain ⟨n1, n3, -⟩ := updateWord_fields ⟨nb, hn⟩
    simp only at n1 n3
    simp only [show causeOf (BitVec.ofNat 8 (2 + 4 * nb)) s.phase = _ from causeOf_update ⟨nb, hn⟩ s.phase]
    by_cases h16 : nb ≤ 16
    · have hcc : countCause nb = none := if_neg (by unfold maxCount; omega)
      obtain hp | hp | hp := hphase
      · exact .inl ⟨.uninit, by rw [hp, hcc]; rfl,
          hs.trans (exec_update_phase _ _ _ h16 (by rw [takeEvent_toCoreState, hp]; rfl)), n1, by simp [hp]⟩
      · exact .inr ⟨by rw [hp, hcc]; rfl, .inr (.inl ⟨hp, nb, h16, hd, rfl, by simp [acceptedBytes, hd, h16],
          hs.trans (exec_update_ready _ _ _ h16 (by simp [hp]))⟩)⟩
      · exact .inl ⟨.finalized, by rw [hp, hcc]; rfl,
          hs.trans (exec_update_phase _ _ _ h16 (by rw [takeEvent_toCoreState, hp]; rfl)), n1, by simp [hp]⟩
    · have hcc : countCause nb = some .count := if_pos (by unfold maxCount; omega)
      exact .inl ⟨.count, by rw [hcc]; rfl, hs.trans (exec_update_count _ _ _ (by omega)), n1,
        fun _ => ⟨n3, by simp [acceptedBytes, hd, h16]⟩⟩
  · refine .inl ⟨.illegal, causeOf_reserved w _ hr, step_reserved s _ rest r h hd, ?_,
      fun _ => ⟨?_, by simp [acceptedBytes, hd]⟩⟩
    · rintro rfl; revert hr; unfold wordIsReserved; decide
    · rintro rfl; revert hr; unfold wordIsReserved; decide

end Machine

end Sys2Proof
end

