-- ==== Sys2Proof/Laws/Message.lean ====
section
/-! SUPPORT. How the blocks and the tail of a message grow as bytes are added, and what the finalization reads. -/

namespace Sys2Proof.Machine

/-- A block inside the message is not changed by what follows it. -/
theorem mixBlockOf_append (msg xs : List Byte) (h : Word × Word) (j : Nat) (hj : 16 * j + 16 ≤ msg.length) :
    mixBlockOf (msg ++ xs) h j = mixBlockOf msg h j := by
  unfold mixBlockOf
  rw [List.drop_append_of_le_length (by omega), List.drop_append_of_le_length (by omega),
    List.take_append_of_le_length (by simp; omega), List.take_append_of_le_length (by simp; omega)]

theorem mixBlocks_same (s) (msg xs : List Byte) (h : (msg ++ xs).length / 16 = msg.length / 16) :
    mixBlocks s (msg ++ xs) = mixBlocks s msg := by
  unfold mixBlocks
  rw [h]
  apply List.foldl_ext
  intro a j hj
  exact mixBlockOf_append _ _ _ _ (by have := List.mem_range.1 hj; omega)

theorem mixBlocks_next (s) (msg xs : List Byte) (h : (msg ++ xs).length / 16 = msg.length / 16 + 1) :
    mixBlocks s (msg ++ xs) = blockmix (mixBlocks s msg).1 (mixBlocks s msg).2 
      (le ((tailOf msg ++ xs).take 8)) (le (((tailOf msg ++ xs).drop 8).take 8)) := by
  unfold mixBlocks
  rw [h, List.range_succ, List.foldl_append, List.foldl_cons, List.foldl_nil]
  have : List.foldl (mixBlockOf (msg ++ xs)) (seedWord s, seedWord s) (List.range (msg.length / 16)) = 
     List.foldl (mixBlockOf (msg)) (seedWord s, seedWord s) (List.range (msg.length / 16)) := by
    apply List.foldl_ext
    intro a j hj
    exact mixBlockOf_append _ _ _ _ (by have := List.mem_range.1 hj; omega)
  rw [this]
  generalize List.foldl (mixBlockOf (msg)) (seedWord s, seedWord s) (List.range (msg.length / 16)) = hh
  unfold mixBlockOf tailOf
  have e : msg.length - msg.length % 16 = 16 * (msg.length / 16) := by omega
  rw [e, ← List.drop_append_of_le_length (by omega), List.drop_drop]

theorem tailOf_length (msg : List Byte) : (tailOf msg).length = msg.length % 16 := by
  simp [tailOf]; omega

theorem tailOf_same (msg xs : List Byte) (h : (msg ++ xs).length / 16 = msg.length / 16) :
    tailOf (msg ++ xs) = tailOf msg ++ xs := by
  unfold tailOf
  have : (msg ++ xs).length = msg.length + xs.length := by simp
  rw [← List.drop_append_of_le_length (by omega)]
  congr 1; omega

theorem tailOf_next (msg xs : List Byte) (h : (msg ++ xs).length / 16 = msg.length / 16 + 1) :
    tailOf (msg ++ xs) = (tailOf msg ++ xs).drop 16 := by
  unfold tailOf
  have : (msg ++ xs).length = msg.length + xs.length := by simp
  rw [← List.drop_append_of_le_length (by omega), List.drop_drop]
  congr 1; omega

/-- The finalization reads H1, H2, LEN and the pending bytes, and nothing else. -/
theorem finalHash_congr {s t : CoreState} (h1 : s.h1 = t.h1) (h2 : s.h2 = t.h2) (hl : s.len = t.len) (hp : s.pendingBytes = t.pendingBytes) : finalHash s = finalHash t := by
  have hc := cnt_congr hl
  have e1 : tailWord1 s = tailWord1 t := by
    have a : s.cells 0 (min s.cnt 8) = t.cells 0 (min t.cnt 8) := by
      rw [← cells_take s 0 s.cnt _ (by omega), ← cells_take t 0 t.cnt _ (by omega)]; unfold CoreState.pendingBytes at hp; rw [hp, hc]
    unfold tailWord1 CoreState.memRead; rw [a]
  have e2 : tailWord2 s = tailWord2 t := by
    have a : s.cells 8 (s.cnt - 8) = t.cells 8 (t.cnt - 8) := by
      by_cases h : 8 ≤ s.cnt
      · have x := cells_drop s 0 s.cnt 8 h; have y := cells_drop t 0 t.cnt 8 (hc ▸ h)
        simp only [Nat.zero_add] at x y
        rw [← x, ← y]; unfold CoreState.pendingBytes at hp; rw [hp]
      · rw [show s.cnt - 8 = 0 by omega, show t.cnt - 8 = 0 by omega]; rfl
    unfold tailWord2 CoreState.memRead; rw [a]
  unfold finalHash
  simp only [e1, e2, h1, h2, hl]

end Sys2Proof.Machine
end

