-- ==== Sys2Proof/Laws/Final.lean ====
section
/-! SUPPORT. The tail words of FINAL as functions of the pending bytes, the mixers at zero, and the lanes of DOUT. -/

namespace Sys2Proof.Machine

/-- The first tail word holds the first eight pending bytes. -/
theorem tailWord1_eq (s : CoreState) : tailWord1 s = le (s.pendingBytes.take 8) := by
  have : s.pendingBytes.take 8 = s.cells 0 (min s.cnt 8) := by
    unfold CoreState.pendingBytes
    rw [← cells_take s 0 s.cnt (min s.cnt 8) (by omega)]
    rcases Nat.le_total s.cnt 8 with h | h
    · rw [Nat.min_eq_left h, List.take_of_length_le (by rw [cells_length]; exact h),
        List.take_of_length_le (by rw [cells_length])]
    · rw [Nat.min_eq_right h]
  rw [this]; rfl

/-- The second tail word holds the pending bytes from offset 8 up. -/
theorem tailWord2_eq (s : CoreState) : tailWord2 s = le (s.pendingBytes.drop 8) := by
  have : s.pendingBytes.drop 8 = s.cells 8 (s.cnt - 8) := by
    unfold CoreState.pendingBytes
    rcases Nat.le_total s.cnt 8 with h | h
    · rw [show s.cnt - 8 = 0 by omega, cells_zero, List.drop_eq_nil_of_le (by rw [cells_length]; exact h)]
    · rw [cells_drop _ _ _ _ h]
  rw [this]; rfl

theorem finalHash_def (s : CoreState) :
    finalHash s = finalmix (s.h1 ^^^ mixk1 (tailWord1 s)) (s.h2 ^^^ mixk2 (tailWord2 s)) s.len := rfl

theorem tailmix_def (h1 h2 : Word) (t : List Byte) :
    tailmix h1 h2 t = (h1 ^^^ mixk1 (le (t.take 8)), h2 ^^^ mixk2 (le (t.drop 8))) := rfl

/-- A pending byte is the byte of its cell. -/
theorem pendingBytes_getD (s : CoreState) (o : Nat) :
    s.pendingBytes.getD o 0 = if o < s.cnt then s.cell o else 0 := by
  unfold CoreState.pendingBytes CoreState.cells
  by_cases h : o < s.cnt <;> simp [h, List.getD]

theorem mixk1_zero : mixk1 0 = 0 := by decide

theorem mixk2_zero : mixk2 0 = 0 := by decide

theorem dout_done (s : State) (h : s.phase = .done) : s.dout = s.h2 ++ s.h1 := by simp [State.dout, h]

theorem dout_not_done (s : State) (h : s.phase ≠ .done) : s.dout = Config.freeDout s.port.draws := by
  unfold State.dout; split <;> simp_all

/-- The bits of two words side by side. -/
theorem pair_getLsbD (h1 h2 : Word) (i : Nat) :
    (h2 ++ h1 : Operand).getLsbD i = if i < 64 then h1.getLsbD i else h2.getLsbD (i - 64) := by
  have := BitVec.getLsbD_append (x := h2) (y := h1) (i := i)
  simpa [Bool.cond_eq_ite] using this

end Sys2Proof.Machine
end

