-- ==== Sys2Proof/Laws/PerInstr.lean ====
section
/-! SUPPORT. One fact for every constructor of `Instr`: the word of a well-formed command is never a reserved word. -/

namespace Sys2Proof.Laws.EncodedForm

/-- The encoder stays inside the opcode map: `rsv` is clear, `op` is not zero, and a row of the table of its own mnemonic
accepts the word (30_encoding.md rules R46, R50, R51). -/
def Statement (i : Instr) : Prop :=
  i.wf = true →
    (encode i).rsv = false ∧ (encode i).op ≠ 0#2 ∧
      ∃ row ∈ opcodeTable, row.mnemonic = i.mnemonic ∧ row.accepts (encode i).cw = true

theorem init : Statement .init := by unfold Statement; decide

theorem final : Statement .final := by unfold Statement; decide

theorem update (nb : Nat) (din : Operand) : Statement (.update nb din) := by
  intro h
  have hn : nb < 32 := by simpa [Instr.wf] using h
  obtain ⟨-, -, hop, -, hrsv⟩ := updateWord_fields ⟨nb, hn⟩
  refine ⟨hrsv, ?_, { mnemonic := "UPDATE", wordMatch := 0x02#8, wordMask := 0x83#8 }, by simp [opcodeTable], rfl, ?_⟩
  · show (BitVec.ofNat 8 (2 + 4 * nb)).extractLsb' 0 2 ≠ 0#2
    rw [hop]; decide
  · show OpcodeRow.accepts _ (BitVec.ofNat 8 (2 + 4 * nb)) = true
    clear h hop hrsv
    interval_cases nb <;> decide

end Sys2Proof.Laws.EncodedForm
end

