-- ==== Sys2Proof/Tests/Slice0.lean ====
section
/-! SUPPORT. The model's own tests. Expected values come from the spec (95_test_vectors.md and the worked examples of the
command files). The second half shows, for every statement with hypotheses, a state and operands that meet them. -/

namespace Sys2Proof.Tests

open Sys2Proof.Machine

/-- A state with the given phase, length counter, carry cells and pending events, seed 0 and zero accumulators. -/
def coreAt (p : Phase) (len : Word) (carry : Memory) (events : List HostEvent) : State :=
  { toCoreState := { CoreState.reset 0 with phase := p, len := len, carry := carry }
    port := { pending := events, response := none, draws := 0 } }

/-- What a function sees of the next state, nothing if there is none. -/
def after {α : Type} (o : Host.Outcome State Fault Refusal) (f : State → α) : Option α :=
  match o with
  | .next t => some (f t)
  | .fault _ => none
  | .refused _ => none

/-! ## Well-formedness -/

theorem test_wf_count_field : Instr.wf (.update 31 0) = true ∧ Instr.wf (.update 32 0) = false := by decide

theorem test_wf_commands_without_operands : Instr.wf .init = true ∧ Instr.wf .final = true := by decide

theorem test_wf_line_needs_its_bytes :
    AsmLine.wf (.update 2 [1, 2]) = true ∧ AsmLine.wf (.update 2 [1]) = false ∧ AsmLine.wf (.update 2 [1, 2, 3]) = false := by
  decide

/-- 30 R54: a line with a rejected count gives no bytes, and its count still fits the field. -/
theorem test_wf_line_with_rejected_count :
    AsmLine.wf (.update 17 []) = true ∧ AsmLine.wf (.update 17 [1]) = false ∧ AsmLine.wf (.update 32 []) = false := by decide

/-! ## Decoding: `rsv`, the five bits of `nb`, the two bits of `op`, from 30 R46 and R50 -/

theorem test_decode_init : decodeTableWord 8 0b0_00000_01 = some .init := by decide

theorem test_decode_update : decodeTableWord 8 0b0_00101_10 = some (.update 5 0) := by decide

theorem test_decode_update_lanes :
    decodeTableWord 136 (0b0_00010_10 + 0x68 * 2 ^ 8 + 0x65 * 2 ^ 16) = some (.update 2 0x6568#128) := by decide

theorem test_decode_update_rejected_count : decodeTableWord 8 0b0_11111_10 = some (.update 31 0) := by decide

theorem test_decode_final : decodeTableWord 8 0b0_00000_11 = some .final := by decide

theorem test_decode_reserved :
    decode ⟨0b1_00000_01#8, 0⟩ = .reserved .rsvSet ∧ decode ⟨0b0_00001_00#8, 0⟩ = .reserved .opZero ∧
    decode ⟨0b0_00001_01#8, 0⟩ = .reserved .countNotZero ∧ decode ⟨0b0_10000_11#8, 0⟩ = .reserved .countNotZero := by decide

/-- 95 section 4, program P2: `UPDATE 5, 68 65 6c 6c 6f`. -/
theorem test_line_of_hello :
    (AsmLine.update 5 [0x68, 0x65, 0x6c, 0x6c, 0x6f]).event = .command ⟨0x16#8, 0x0000006f6c6c6568#128⟩ := by decide

/-- A word and its lanes placed by the host run at the very next step from reset. -/
theorem test_fetched_word_runs :
    step (State.reset.withFetchWord 8 0b0_00000_01) = exec .init { State.reset with port := ⟨[], none, 1⟩ } := rfl

/-! ## The datapath: 95 section 2 -/

theorem test_rotl64 :
    rotl64 0x0123456789abcdef#64 27 = 0x3c4d5e6f78091a2b#64 ∧ rotl64 0x8000000000000000#64 33 = 0x0000000100000000#64 := by
  decide

theorem test_mixk :
    mixk1 0x00000000000000ff#64 = 0xb3681610d0159540#64 ∧ mixk2 0x00000000000000ff#64 = 0xf6fc3e035e414568#64 := by decide

theorem test_fmix64 :
    fmix64 0xffffffffffffffff#64 = 0x64b5720b4b825f21#64 ∧ fmix64 0x0000000200000000#64 = 0x6b80f8591e1145c3#64 := by decide

/-- Rows B5 and B7. -/
theorem test_blockmix :
    blockmix 0xffffffffffffffff#64 0xffffffffffffffff#64 0xffffffffffffffff#64 0xffffffffffffffff#64 =
      (0x5afdb6c4e814f338#64, 0x7765cc27813091de#64) ∧
    blockmix 0x0123456789abcdef#64 0xfedcba9876543210#64 0x1111111111111111#64 0x2222222222222222#64 =
      (0x7d140475d27be898#64, 0x24d9f7aefe1d6392#64) := by decide

theorem test_tailwords :
    tailwords [0x68, 0x65, 0x20, 0x6c, 0x61, 0x7a, 0x79, 0x20, 0x64, 0x6f, 0x67] =
      (0x20797a616c206568#64, 0x0000000000676f64#64) ∧
    tailwords [0, 1, 2, 3, 4, 5, 6, 7, 8] = (0x0706050403020100#64, 0x0000000000000008#64) := by decide

/-- The avalanche and cross-add part of trace T1. -/
theorem test_finalmix : finalmix 1 1 0 = (0x4610abe56eff5cb5#64, 0x51622daa78f83583#64) := by decide

/-- Trace T5: seed 9747b28c, the 17 bytes 00 to 10. -/
theorem test_hash_with_block_and_tail :
    hashMessage 0x9747b28c#32 ((List.range 17).map (BitVec.ofNat 8)) =
      [0x48, 0xca, 0xd1, 0x23, 0x96, 0x3e, 0xf0, 0x4b, 0xec, 0xfe, 0x86, 0xc1, 0x35, 0x6d, 0xb4, 0xcd] := by decide

/-- The seed is zero-extended (95 section 3.3, seed ffffffff, empty message). -/
theorem test_hash_seed_widening :
    hashMessage 0xffffffff#32 [] =
      [0xec, 0xc9, 0x3b, 0x9d, 0x4d, 0xdf, 0xf1, 0x6a, 0x6b, 0x44, 0xe6, 0x1e, 0x12, 0x21, 0x74, 0x85] := by decide

/-! ## One step of each command -/

/-- The cells of "The qui". -/
def theQui : Memory := [(0, 0x54), (1, 0x68), (2, 0x65), (3, 0x20), (4, 0x71), (5, 0x75), (6, 0x69)]

/-- The cells of "hello". -/
def hello : Memory := [(0, 0x68), (1, 0x65), (2, 0x6c), (3, 0x6c), (4, 0x6f)]

/-- 41_cmd_init.md, the worked example. -/
theorem test_init_worked_example :
    after (exec .init { coreAt .done 43 hello [] with seed := 0x9747b28c#32, h1 := 7, h2 := 9 })
      (fun t => (t.h1, t.h2, t.len, t.cell 4, t.status)) =
    some (0x000000009747b28c#64, 0x000000009747b28c#64, 0#64, 0x6f#8, 0x01#8) := by decide

/-- 42_cmd_update.md, the worked example: "ck brown fox jum" after "The qui". -/
theorem test_update_worked_example :
    after (exec (.update 16 0x6d756a20786f66206e776f7262206b63#128) (coreAt .ready 7 theQui []))
      (fun t => (t.h1, t.h2, t.len, t.pendingBytes)) =
    some (0x065f54070009580c#64, 0x1185bfe0bc383732#64, 0x17#64, [0x66, 0x6f, 0x78, 0x20, 0x6a, 0x75, 0x6d]) := by decide

/-- A zero byte over a listed cell removes the pair: the cells stay in canonical form. -/
theorem test_update_zero_byte :
    after (exec (.update 2 0x4100#128) (coreAt .ready 16 hello [])) (fun t => (t.carry, t.cnt)) =
    some ([(1, 0x41), (2, 0x6c), (3, 0x6c), (4, 0x6f)], 2) := by decide

/-- 43_cmd_final.md, the worked example. -/
theorem test_final_worked_example :
    after (exec .final (coreAt .ready 5 hello [])) (fun t => (t.h1, t.h2, t.len, t.phase, t.port.response)) =
    some (0xcbd8a7b341bd9b02#64, 0x5b1e906a48ae1d19#64, 5#64, .done, some (.okDigest
      [0x02, 0x9b, 0xbd, 0x41, 0xb3, 0xa7, 0xd8, 0xcb, 0x19, 0x1d, 0xae, 0x48, 0x6a, 0x90, 0x1e, 0x5b])) := by decide

/-- 95 section 4, program P2: DOUT after FINAL. -/
theorem test_final_dout :
    after (exec .final (coreAt .ready 5 hello [])) State.dout = some 0x5b1e906a48ae1d19cbd8a7b341bd9b02#128 := by decide

/-! ## Rejected commands: 95 section 4, program P5 -/

theorem test_update_before_init :
    after (step (coreAt .uninit 0 [] [.command ⟨0x06#8, 0x61#128⟩])) (fun t => (t.status, t.port.response)) =
    some (0x1c#8, some (.err .uninit)) := by decide

/-- E_COUNT before the phase cause (60 R115), and ECAUSE keeps the first cause. -/
theorem test_count_before_phase :
    after (step { coreAt .uninit 0 [] [.command ⟨0x46#8, 0⟩] with err := true, ecause := some .uninit })
      (fun t => (t.status, t.port.response)) =
    some (0x1c#8, some (.err .count)) := by decide

theorem test_final_after_final :
    after (step { coreAt .done 3 [] [.command ⟨0x03#8, 0⟩] with err := true, ecause := some .uninit })
      (fun t => (t.status, t.port.response)) =
    some (0x1e#8, some (.err .finalized)) := by decide

theorem test_reserved_word_in_ready :
    after (step (coreAt .ready 3 hello [.command ⟨0x05#8, 0⟩])) (fun t => (t.len, t.carry, t.status, t.port.response)) =
    some (3#64, hello, 0x0d#8, some (.err .illegal)) := by decide

/-- The core's transition alone (R5): a state and a command to a state and a response. -/
theorem test_coreStep_hello :
    (coreStep (coreAt .ready 5 hello []).toCoreState ⟨0x03#8, 0⟩).1.h1 = 0xcbd8a7b341bd9b02#64 ∧
    (coreStep (coreAt .ready 5 hello []).toCoreState ⟨0x81#8, 0⟩).2 = .err .illegal := by decide

/-- 70 R130, R131: a reset while a message is in progress. -/
theorem test_reset_event :
    after (step { coreAt .ready 3 hello [.reset 0x9747b28c#32] with err := true, ecause := some .illegal })
      (fun t => (t.seed, t.phase, t.status)) =
    some (0x9747b28c#32, .uninit, 0x00#8) := by decide

/-! ## Witnesses: the hypotheses of each statement are met together

One theorem for each statement that has hypotheses, named after it. Where a statement has several clauses, each is met at a
boundary of its range. -/

/-- A ready core whose cells 0 to `n-1` hold 1 to `n`. -/
def filled (n : Nat) : State :=
  coreAt .ready (BitVec.ofNat 64 n) ((List.range n).map fun i => (i, BitVec.ofNat 8 (i + 1))) []

/-- The words of INIT, UPDATE 0, UPDATE 16, UPDATE 17, UPDATE 31 and FINAL, and one reserved word of each kind. -/
def cInit : Command := ⟨0x01#8, 0⟩
def cUpdate0 : Command := ⟨0x02#8, 0⟩
def cUpdate16 : Command := ⟨0x42#8, 0x0f0e0d0c0b0a09080706050403020100#128⟩
def cUpdate17 : Command := ⟨0x46#8, 0⟩
def cUpdate31 : Command := ⟨0x7e#8, 0⟩
def cFinal : Command := ⟨0x03#8, 0⟩
def cRsvSet : Command := ⟨0x81#8, 0⟩
def cOpZero : Command := ⟨0x00#8, 0⟩
def cCountNotZero : Command := ⟨0x7f#8, 0⟩

theorem test_hyp_DecodeOfEncodeIsTheCommand :
    Instr.wf (.update 31 0xff#128) = true ∧ Instr.wf (.update 0 0) = true ∧ Instr.wf .init = true ∧ Instr.wf .final = true := by
  decide

theorem test_hyp_EncodeOfDecodeIsTheWord :
    decode cInit = .instr .init ∧ decode cUpdate31 = .instr (.update 31 0) ∧ decode cUpdate0 = .instr (.update 0 0) := by decide

theorem test_hyp_DecodingFollowsTheOpcodeMap :
    decode cUpdate17 = .instr (.update 17 0) ∧ decode cUpdate31 = .instr (.update 31 0) ∧ decode cFinal = .instr .final ∧
    (17 ≤ 17 ∧ 17 ≤ 31) := by decide

theorem test_hyp_ReservedWordsAreRejected :
    (coreAt .ready 0 [] [.command cRsvSet]).port.pending = .command cRsvSet :: [] ∧
    decode cRsvSet = .reserved .rsvSet ∧ decode cOpZero = .reserved .opZero ∧
    decode cCountNotZero = .reserved .countNotZero := by decide

theorem test_hyp_StepRunsTheDecodedCommand :
    (coreAt .ready 0 [] [.command cUpdate16]).port.pending = .command cUpdate16 :: [] ∧
    decode cUpdate16 = .instr (.update 16 cUpdate16.din) := by decide

theorem test_hyp_StepIsTheTransitionOfTheCore :
    (coreAt .done 5 hello [.command cCountNotZero]).port.pending = .command cCountNotZero :: [] ∧
    (coreAt .ready 5 hello [.command cUpdate16]).port.pending = .command cUpdate16 :: [] ∧
    (coreAt .ready 5 hello [.reset 3]).port.pending = .reset 3 :: [] := by decide

theorem test_hyp_StepWithNothingPendingChangesNothing : State.reset.port.pending = [] := by decide

theorem test_hyp_EveryEventIsAnsweredInItsStep :
    (coreAt .ready 0 [] [.command cOpZero]).port.pending = .command cOpZero :: [] ∧
    (coreAt .done 0 [] [.reset 1, .command cInit]).port.pending = .reset 1 :: [.command cInit] := by decide

theorem test_hyp_PresentedWordIsTheNextCommand :
    decodeTableWord 8 0x01 = some .init ∧ decodeTableWord 136 0x4142 = some (.update 16 0x41#128) ∧
    decodeTableWord 8 0x03 = some .final := by decide

theorem test_hyp_ResetEventGivesTheResetState :
    (coreAt .ready 5 hello [.reset 7]).port.pending = .reset 7 :: [] ∧
    (coreAt .done 9 [] [.reset 7]).port.pending = (coreAt .ready 5 hello [.reset 7]).port.pending ∧
    (coreAt .done 9 [] [.reset 7]).port.draws = (coreAt .ready 5 hello [.reset 7]).port.draws := by decide

/-- A state with the seed of the worked example and no error record. -/
theorem test_hyp_InitStartsANewMessage :
    decode cInit = .instr .init ∧ cInit.cw = 0x01#8 ∧
    ({ coreAt .done 5 hello [] with seed := 0x9747b28c#32 }).seed = 0x9747b28c#32 ∧
    ({ coreAt .done 5 hello [] with seed := 0x9747b28c#32 }).err = false ∧
    ({ coreAt .done 5 hello [] with seed := 0x9747b28c#32 }).ecause = none := by decide

theorem test_hyp_InitForgetsEarlierMessages :
    (∀ c ∈ [cUpdate16, cUpdate17, cOpZero], c.cw ≠ 0x01#8 ∧ c.cw ≠ 0x03#8) ∧
    (coreAt .done 5 hello
        [.command cInit, .command cUpdate16, .command cUpdate17, .command cOpZero, .command cFinal]).port.pending =
      .command ⟨0x01#8, 0⟩ :: ([cUpdate16, cUpdate17, cOpZero].map HostEvent.command ++ .command ⟨0x03#8, 0⟩ :: []) ∧
    (coreAt .done 5 hello []).seed = (coreAt .ready 9 [] []).seed ∧ (coreAt .done 5 hello []).err = (coreAt .ready 9 [] []).err ∧
    (coreAt .done 5 hello []).ecause = (coreAt .ready 9 [] []).ecause ∧
    (coreAt .done 5 hello []).port = (coreAt .ready 9 [] []).port := by decide

theorem test_hyp_UpdateAbsorbsItsLanesInOrder :
    16 < 17 ∧ 16 ≤ 16 ∧ 0 ≤ 16 ∧ (coreAt .uninit 0 [] []).phase = .uninit ∧ (coreAt .done 0 [] []).phase = .done ∧
    (filled 15).phase = .ready := by decide

theorem test_hyp_AbsorbedByteGoesToTheFillLevel :
    (filled 0).cnt < 15 ∧ (filled 14).cnt < 15 ∧ (filled 15).cnt = 15 ∧ 14 ≠ (filled 15).cnt := by decide

theorem test_hyp_UpdateOfNoBytesChangesNothing :
    (filled 15).phase = .ready ∧ (coreAt .uninit 0 [] []).phase = .uninit ∧ (coreAt .done 0 [] []).phase = .done := by decide

/-- Both clauses at their boundary (a block exactly completed, one byte short of it), and a state that has absorbed a message. -/
theorem test_hyp_UpdateMixesOneBlockAndKeepsTheRest :
    (filled 15).phase = .ready ∧ 16 ≤ (filled 15).cnt + 1 ∧ 16 ≤ (filled 15).cnt + 16 ∧ 16 ≤ (filled 0).cnt + 16 ∧
    (filled 15).cnt + 0 < 16 ∧ (filled 0).cnt + 15 < 16 ∧ 16 ≤ 16 := by decide

theorem test_hyp_UpdateMixesOneBlockAndKeepsTheRest_message :
    Absorbed [0x54, 0x68, 0x65, 0x20, 0x71, 0x75, 0x69] (coreAt .ready 7 theQui []).toCoreState := by unfold Absorbed; decide

/-- Cells stored to, and cells not, when the beat wraps past cell 15; and a rejected UPDATE for the second clause. -/
theorem test_hyp_OnlyUpdateStoresAndOnlyToItsCells :
    (filled 15).phase = .ready ∧ 2 ≤ 16 ∧ (∀ i < 2, 1 ≠ ((filled 15).cnt + i) % 16) ∧
    (∀ i < 2, 14 ≠ ((filled 15).cnt + i) % 16) ∧ ((filled 15).cnt + 1) % 16 = 0 ∧
    16 < 17 ∧ (coreAt .done 0 [] []).phase ≠ .ready := by decide

theorem test_hyp_LanesBeyondTheCountAreIgnored :
    (∀ i < 2, (0xaabbcc#128).extractLsb' (8 * i) 8 = (0x11bbcc#128).extractLsb' (8 * i) 8) ∧ 15 < 16 ∧
    (filled 0).phase = .ready ∧ (filled 0).cnt = 0 := by decide

theorem test_hyp_UpdateNeverFinishesAMessage : (filled 15).cnt + 0 < 16 ∧ (filled 0).cnt + 15 < 16 := by decide

/-- The same three bytes in one beat, and in two beats with an empty one between. -/
theorem test_hyp_IncrementalEquivalence :
    (filled 15).phase = .ready ∧ (∀ x ∈ [((3 : Nat), (0x030201#128 : Operand))], x.1 ≤ 16) ∧
    (∀ y ∈ [((1 : Nat), (0xff01#128 : Operand)), (0, 9#128), (2, 0x0302#128)], y.1 ≤ 16) ∧
    ([((3 : Nat), (0x030201#128 : Operand))].flatMap fun x => operandBytes x.2 x.1) =
      ([((1 : Nat), (0xff01#128 : Operand)), (0, 9#128), (2, 0x0302#128)].flatMap fun y => operandBytes y.2 y.1) := by decide

theorem test_hyp_FinalProducesTheDigest :
    (coreAt .uninit 0 [] []).phase = .uninit ∧ (coreAt .done 0 [] []).phase = .done ∧ (filled 15).phase = .ready ∧
    cFinal.cw = 0x03#8 ∧ decode cFinal = .instr .final ∧ (coreAt .ready 5 hello []).phase = .ready ∧
    (coreAt .ready 5 hello []).h1 = 0 ∧ (coreAt .ready 5 hello []).h2 = 0 ∧ (coreAt .ready 5 hello []).len = 5 ∧
    (coreAt .ready 5 hello []).pendingBytes = [0x68, 0x65, 0x6c, 0x6c, 0x6f] := by decide

/-- The two tail words with 15, with 8 and with no pending bytes. -/
theorem test_hyp_FinalFoldsOnlyThePendingCells :
    ((filled 15).phase = .ready ∧
      (∀ o < 8, (0x0807060504030201#64).extractLsb' (8 * o) 8 = if o < (filled 15).cnt then (filled 15).cell o else 0) ∧
      ∀ o < 8, (0x000f0e0d0c0b0a09#64).extractLsb' (8 * o) 8 =
        if 8 + o < (filled 15).cnt then (filled 15).cell (8 + o) else 0) ∧
    ((filled 8).phase = .ready ∧ (filled 8).cnt ≤ 8 ∧
      (∀ o < 8, (0x0807060504030201#64).extractLsb' (8 * o) 8 = if o < (filled 8).cnt then (filled 8).cell o else 0) ∧
      ∀ o < 8, (0#64).extractLsb' (8 * o) 8 = if 8 + o < (filled 8).cnt then (filled 8).cell (8 + o) else 0) ∧
    ((filled 0).phase = .ready ∧ (filled 0).cnt = 0 ∧
      (∀ o < 8, (0#64).extractLsb' (8 * o) 8 = if o < (filled 0).cnt then (filled 0).cell o else 0) ∧
      ∀ o < 8, (0#64).extractLsb' (8 * o) 8 = if 8 + o < (filled 0).cnt then (filled 0).cell (8 + o) else 0) := by decide

theorem test_hyp_ZeroTailLeavesOnlyTheLength :
    (coreAt .ready 15 [] []).phase = .ready ∧ (coreAt .ready 15 [] []).cnt = 15 ∧
    ∀ b ∈ (coreAt .ready 15 [] []).pendingBytes, b = 0 := by decide

theorem test_hyp_StateAfterAnAcceptedFinal : (filled 15).phase = .ready ∧ 0 ≤ 16 ∧ 16 ≤ 16 := by decide

/-- A ready state, and a finished one that holds the digest of `hello`. -/
theorem test_hyp_DigestStandsOnDout :
    (coreAt .ready 5 hello []).phase = .ready ∧
    ∃ u : State, u.phase = .done ∧
      after (exec .final (coreAt .ready 5 hello [])) (fun t => (t.h1, t.h2)) = some (u.h1, u.h2) :=
  ⟨rfl, { coreAt .done 5 hello [] with h1 := 0xcbd8a7b341bd9b02#64, h2 := 0x5b1e906a48ae1d19#64 }, rfl, by decide⟩

theorem test_hyp_CountAboveSixteenIsRejected : 17 ≤ 17 ∧ 17 ≤ 31 := by decide

theorem test_hyp_BeforeInitOnlyInitIsAccepted : State.reset.phase = .uninit ∧ 0 ≤ 16 ∧ 16 ≤ 16 := by decide

theorem test_hyp_AfterFinalUpdateAndFinalAreRejected :
    (coreAt .done 5 hello []).phase = .done ∧ (Instr.final = .final ∨ ∃ nb din, nb ≤ 16 ∧ Instr.final = .update nb din) ∧
    (Instr.update 16 7 = .final ∨ ∃ nb din, nb ≤ 16 ∧ Instr.update 16 7 = .update nb din) :=
  ⟨rfl, .inl rfl, .inr ⟨16, 7, by decide, rfl⟩⟩

/-- A first rejection and a later one. -/
theorem test_hyp_RejectedCommandChangesOnlyTheErrorRecord :
    (coreAt .ready 5 hello [.command cUpdate17]).port.pending = .command cUpdate17 :: [] ∧
    step (coreAt .ready 5 hello [.command cUpdate17]) =
      .next (rejected .count (takeEvent [] (coreAt .ready 5 hello [.command cUpdate17]))) ∧
    (rejected .count (takeEvent [] (coreAt .ready 5 hello [.command cUpdate17]))).port.response = some (.err .count) ∧
    (coreAt .ready 5 hello [.command cUpdate17]).err = false ∧
    ({ coreAt .ready 5 hello [.command cUpdate17] with err := true, ecause := some .illegal }).err = true :=
  ⟨rfl, rfl, rfl, rfl, rfl⟩

/-- Each cause of the decision procedure, the earlier one winning where two hold, and the three accepted commands. -/
theorem test_hyp_CausesAreReportedInPriorityOrder :
    (coreAt .done 0 [] [.command cRsvSet]).port.pending = .command cRsvSet :: [] ∧
    causeOf cRsvSet.cw .done = some .illegal ∧ causeOf cOpZero.cw .uninit = some .illegal ∧
    causeOf cCountNotZero.cw .ready = some .illegal ∧ causeOf cUpdate17.cw .uninit = some .count ∧
    causeOf cUpdate31.cw .done = some .count ∧ causeOf cUpdate16.cw .uninit = some .uninit ∧
    causeOf cFinal.cw .done = some .finalized ∧ causeOf cUpdate16.cw .ready = none ∧ causeOf cFinal.cw .ready = none ∧
    causeOf cInit.cw .done = none := by decide

theorem test_hyp_RejectedCommandKeepsTheOldDigest :
    (coreAt .done 5 [] [.command cUpdate16]).port.pending = .command cUpdate16 :: [] ∧
    causeOf cUpdate16.cw (coreAt .done 5 [] [.command cUpdate16]).phase = some .finalized ∧
    causeOf cUpdate16.cw (coreAt .uninit 5 [] [.command cUpdate16]).phase = some .uninit ∧
    (coreAt .uninit 5 [] [.command cUpdate16]).phase ≠ .done := by decide

theorem test_hyp_PhaseTransitionTable :
    (coreAt .uninit 0 [] [.command cInit]).port.pending = .command cInit :: [] ∧ decode cInit = .instr .init ∧
    decode cUpdate0 = .instr (.update 0 0) ∧ decode cUpdate16 = .instr (.update 16 cUpdate16.din) ∧
    decode cUpdate17 = .instr (.update 17 0) ∧ decode cUpdate31 = .instr (.update 31 0) ∧ decode cFinal = .instr .final ∧
    decode cOpZero = .reserved .opZero ∧ (coreAt .uninit 0 [] []).phase = .uninit ∧ (coreAt .ready 0 [] []).phase = .ready ∧
    (coreAt .done 0 [] []).phase = .done ∧ (coreAt .done 0 [] [.reset 3]).port.pending = .reset 3 :: [] := by decide

theorem test_hyp_ResponseCodes :
    (coreAt .ready 0 [] [.command cFinal]).port.pending = .command cFinal :: [] ∧ causeOf cFinal.cw .ready = none ∧
    cFinal.cw = 0x03#8 ∧ causeOf cFinal.cw .done = some .finalized ∧ causeOf cOpZero.cw .ready = some .illegal := by decide

/-- A first rejection, a later one, an accepted command, a reset, and a state that meets the invariant. -/
theorem test_hyp_ErrorRecordIsSticky :
    (coreAt .ready 0 [] [.reset 3]).port.pending = .reset 3 :: [] ∧
    (coreAt .ready 0 [] [.command cUpdate17]).port.pending = .command cUpdate17 :: [] ∧
    causeOf cUpdate17.cw .ready = some .count ∧ (coreAt .ready 0 [] []).err = false ∧
    ({ coreAt .ready 0 [] [] with err := true, ecause := some .illegal }).err = true ∧ causeOf cUpdate16.cw .ready = none ∧
    (coreAt .ready 0 [] [.command cUpdate17]).Inv := by decide

theorem test_hyp_SeedIsWrittenOnlyByReset :
    (coreAt .ready 0 [] [.command cInit]).port.pending = .command cInit :: [] ∧
    (coreAt .ready 0 [] [.reset 3]).port.pending = .reset 3 :: [] := by decide

theorem test_hyp_LengthCountsAcceptedBytes :
    (coreAt .ready 0xffffffffffffffff#64 [] [.command cUpdate16]).port.pending = .command cUpdate16 :: [] ∧
    decode cInit = .instr .init ∧ decode cUpdate16 = .instr (.update 16 cUpdate16.din) ∧
    causeOf cUpdate16.cw (coreAt .ready 0xffffffffffffffff#64 [] [.command cUpdate16]).phase = none ∧
    decode cFinal = .instr .final ∧ causeOf cUpdate17.cw .ready = some .count := by decide

theorem test_hyp_StatusFields :
    State.reset.Inv ∧ State.reset.err = false ∧ State.reset.ecause = none ∧ State.reset.phase = .uninit ∧
    (coreAt .ready 5 hello []).err = false ∧ (coreAt .ready 5 hello []).ecause = none ∧ (coreAt .ready 5 hello []).phase = .ready := by
  decide

theorem test_hyp_DoutShowsTheDigestOnlyWhenDone :
    (coreAt .done 5 hello []).phase = .done ∧ State.reset.phase ≠ .done ∧ (coreAt .ready 5 hello []).phase ≠ .done := by decide

/-- Two states before INIT that differ in H1, H2, LEN and a cell; and two ready ones that differ in a cell not pending. -/
theorem test_hyp_UnspecifiedValuesAreNeverObserved :
    SameLive (coreAt .uninit 0 [] [.command cInit]) { coreAt .uninit 9 hello [.command cInit] with h1 := 1, h2 := 2 } ∧
    SameLive (coreAt .ready 5 hello [.command cFinal]) (coreAt .ready 5 (hello ++ [(7, 0xff)]) [.command cFinal]) := by
  unfold SameLive; decide

theorem test_hyp_StepKeepsTheInvariants :
    (coreAt .ready 5 hello [.command cUpdate0]).Inv ∧
    step (coreAt .ready 5 hello [.command cUpdate0]) =
      .next { coreAt .ready 5 hello [] with port := ⟨[], some .ok, 1⟩ } := ⟨by decide, rfl⟩

theorem test_hyp_ReadyStateReflectsTheMessage :
    (coreAt .done 9 [] [.command ⟨0x01#8, 5⟩]).port.pending = .command ⟨0x01#8, 5⟩ :: [] ∧
    Absorbed [0x68, 0x65, 0x6c, 0x6c, 0x6f] (coreAt .ready 5 hello [.command cUpdate16]).toCoreState ∧
    (coreAt .ready 5 hello [.command cUpdate16]).port.pending = .command cUpdate16 :: [] ∧
    cUpdate16.cw ≠ 0x01#8 ∧ cUpdate16.cw ≠ 0x03#8 := by unfold Absorbed; decide

theorem test_hyp_WholeMessageDigest :
    (∀ c ∈ [cFinal, cUpdate16], c.cw ≠ 0x01#8) ∧ (∀ c ∈ [cUpdate16, cUpdate31], c.cw ≠ 0x01#8 ∧ c.cw ≠ 0x03#8) ∧
    (coreAt .done 5 hello [.reset 1, .command cFinal, .command cUpdate16, .command ⟨0x01#8, 8⟩, .command cUpdate16,
        .command cUpdate31, .command ⟨0x03#8, 9⟩]).port.pending =
      .reset 1 :: ([cFinal, cUpdate16].map HostEvent.command ++
        .command ⟨0x01#8, 8⟩ :: ([cUpdate16, cUpdate31].map HostEvent.command ++ .command ⟨0x03#8, 9⟩ :: [])) := by decide

theorem test_hyp_NoErrorMeansNothingWasRejected :
    (coreAt .uninit 0 [] [.command cInit, .command cUpdate17]).port.pending =
      [cInit, cUpdate17].map HostEvent.command ++ [] := by decide

theorem test_hyp_InstancesAreIndependent :
    [State.reset, coreAt .ready 5 hello []][1]? = some (coreAt .ready 5 hello []) ∧ [1, 0, 1, 7].count 1 = 2 := by decide

theorem test_hyp_PseudoInstructionExpansions :
    (coreAt .ready 5 hello ((Pseudo.expand (.hash [0x61, 0x62])).map fun i => HostEvent.command (encode i))).port.pending =
      ((Pseudo.hash [0x61, 0x62]).expand.map fun i => HostEvent.command (encode i)) ++ [] ∧
    (coreAt .ready 5 hello []).phase = .ready ∧ State.reset.phase = .uninit ∧ (coreAt .done 5 hello []).phase = .done := by decide

theorem test_hyp_AssemblerLinesGiveTheirEvents :
    (AsmLine.update 16 (List.replicate 16 0xff)).wf = true ∧ 16 ≤ 16 ∧ (AsmLine.update 0 []).wf = true ∧ 0 ≤ 16 := by decide

theorem test_hyp_RotationMovesEveryBit : (1 ≤ 1 ∧ 1 ≤ 63) ∧ (1 ≤ 63 ∧ 63 ≤ 63) ∧ 63 < 64 := by decide

theorem test_hyp_ByteAssemblyIsInverseToLE64 :
    (List.replicate 8 (0xff : Byte)).length = 8 ∧ (List.replicate 7 (0xff : Byte)).length ≤ 7 ∧ ([] : List Byte).length ≤ 7 := by
  decide

theorem test_hyp_BlockMixAsListed :
    ∃ h1 h2 k1 k2 a b h1' h2' : Word, h1 ≠ 0 ∧ a = h1 ^^^ mixk1 k1 ∧ h1' = (rotl64 a 27 + h2) * 5#64 + 0x52dce729#64 ∧
      b = h2 ^^^ mixk2 k2 ∧ h2' = (rotl64 b 31 + h1') * 5#64 + 0x38495ab5#64 :=
  ⟨1, 2, 3, 4, _, _, _, _, by decide, rfl, rfl, rfl, rfl⟩

theorem test_hyp_TailWordsPlaceEveryByte :
    (List.replicate 15 (0xff : Byte)).length ≤ 15 ∧ (List.replicate 8 (0xff : Byte)).length ≤ 8 ∧ ([] : List Byte).length ≤ 8 := by
  decide

theorem test_hyp_TailMixIsTwoXors :
    (List.replicate 15 (0xff : Byte)).length ≤ 15 ∧ (List.replicate 15 (0 : Byte)).length ≤ 15 ∧
    ∀ b ∈ List.replicate 15 (0 : Byte), b = 0 := by decide

theorem test_hyp_FinalMixCrossAddsInSequence :
    ∃ h1 h2 len p q x y : Word, len ≠ 0 ∧ p = h1 ^^^ len ∧ q = h2 ^^^ len ∧ x = fmix64 (p + q) ∧ y = fmix64 (p + 2#64 * q) :=
  ⟨1, 2, 3, _, _, _, _, by decide, rfl, rfl, rfl, rfl⟩

end Sys2Proof.Tests
end

/-! Scope (00_scope.md): a step carries out the first pending event by the core's own transition, and waits when there is none. -/

namespace Sys2Proof.Machine

/-! ## What a step does with a command, and what the reset state shows -/

/-- A decoded command, executed, is the core's transition (R5), answered. -/
theorem exec_eq_answer_coreStep (s : State) (cmd : Command) (i : Instr) (hd : decode cmd = .instr i) :
    exec i s = .next (answer (coreStep s.toCoreState cmd) s) := by
  unfold coreStep
  rw [hd]
  cases i with
  | init => exact exec_init s
  | update nb din => exact exec_update nb din s
  | final => exact exec_final s

theorem coreStep_reserved (s : CoreState) (cmd : Command) (r : Reserved) (hd : decode cmd = .reserved r) :
    coreStep s cmd = raiseCause .illegal s := by
  unfold coreStep
  rw [hd]

/-- The one equation of a step with a command pending, reserved or not: the port is read for the event and for nothing else. -/
theorem step_eq_answer_coreStep (s : State) (cmd : Command) (rest : List HostEvent)
    (h : s.port.pending = .command cmd :: rest) :
    step s = .next (answer (coreStep s.toCoreState cmd) (takeEvent rest s)) := by
  cases hd : decode cmd with
  | instr i => rw [step_instr s cmd rest i h hd, exec_eq_answer_coreStep _ cmd i hd, takeEvent_toCoreState]
  | reserved r => rw [step_reserved s cmd rest r h hd, coreStep_reserved _ cmd r hd]

@[simp] theorem reset_cell (v : Seed) (a : Nat) : (CoreState.reset v).cell a = blankByte := memory_read_nil a

@[simp] theorem reset_status (v : Seed) : (CoreState.reset v).status = 0x00#8 := by
  simp [CoreState.status, CoreState.ecauseCode, Phase.code]

/-! ## The obligations -/

/-- Settles O58: a command is answered with `coreStep` of the core, a reset event is `CoreState.reset`. -/
theorem stepIsTheTransitionOfTheCore : Obligations.StepIsTheTransitionOfTheCore := by
  unfold Obligations.StepIsTheTransitionOfTheCore
  constructor
  · intro s cmd rest h
    exact ⟨_, step_eq_answer_coreStep s cmd rest h, rfl, rfl⟩
  · intro s v rest h
    exact ⟨_, step_resetEvent s v rest h, rfl, rfl⟩

/-- Settles O8, by the first pending event; the two kinds of event are the two clauses of O58. -/
theorem everyEventIsAnsweredInItsStep : Obligations.EveryEventIsAnsweredInItsStep := by
  unfold Obligations.EveryEventIsAnsweredInItsStep
  obtain ⟨hcommand, hreset⟩ := stepIsTheTransitionOfTheCore
  intro s
  match hp : s.port.pending with
  | [] => exact ⟨s, step_idle s hp, by simp, by simp⟩
  | .command cmd :: es =>
    obtain ⟨t, hstep, -, hport⟩ := hcommand s cmd es hp
    exact ⟨t, hstep, by simp [hport], by simp⟩
  | .reset v :: es =>
    obtain ⟨t, hstep, -, hport⟩ := hreset s v es hp
    exact ⟨t, hstep, by simp, by simp [hport]⟩

/-- Settles O6: the state it names is the one `takeEvent` leaves. -/
theorem stepRunsTheDecodedCommand : Obligations.StepRunsTheDecodedCommand := by
  unfold Obligations.StepRunsTheDecodedCommand
  intro s c i rest h hd
  exact step_instr s c rest i h hd

/-- Settles O7: with nothing to fetch the step is the identity. -/
theorem stepWithNothingPendingChangesNothing : Obligations.StepWithNothingPendingChangesNothing := by
  unfold Obligations.StepWithNothingPendingChangesNothing
  exact step_idle

/-- Settles O10: the core's part is `CoreState.reset` with the default seed, whose unlisted cells are blank. -/
theorem resetStateOfTheMachine : Obligations.ResetStateOfTheMachine := by
  unfold Obligations.ResetStateOfTheMachine
  refine ⟨reset_seed _, reset_phase _, reset_err _, reset_ecause _, reset_status _, reset_h1 _, reset_h2 _, reset_len _, ?_, rfl⟩
  exact reset_cell _

end Sys2Proof.Machine

/-! State (10_state.md): what the core's transition does to each item of the state, and what of the state the host can observe. -/

namespace Sys2Proof.Machine

/-! ## What the core's transition can do, said once -/

theorem answer_inj {r r' : CoreState × Response} {s : State} : answer r s = answer r' s ↔ r = r' := by
  refine ⟨fun h => Prod.ext ?_ ?_, fun h => h ▸ rfl⟩
  · simpa using congrArg State.toCoreState h
  · simpa using congrArg (fun t => t.port.response) h

/-- The transition of the core on a command: the rejection with the cause of R115, or the effect of the command decoded. -/
theorem coreStep_cases (s : CoreState) (cmd : Command) :
    (∃ c, causeOf cmd.cw s.phase = some c ∧ coreStep s cmd = raiseCause c s) ∨
    (causeOf cmd.cw s.phase = none ∧
      ((decode cmd = .instr .init ∧ coreStep s cmd = runInit s) ∨
       (∃ nb, decode cmd = .instr (.update nb cmd.din) ∧ coreStep s cmd = (absorbAll s (operandBytes cmd.din nb), .ok)) ∨
       (decode cmd = .instr .final ∧ coreStep s cmd = finalize s))) := by
  have hstep := step_eq_answer_coreStep { toCoreState := s, port := ⟨[.command cmd], none, 0⟩ } cmd [] rfl
  have h := step_command { toCoreState := s, port := ⟨[.command cmd], none, 0⟩ } cmd [] rfl
  simp only [hstep, exec_init, takeEvent_toCoreState, Host.Outcome.next.injEq, answer_inj] at h
  obtain ⟨c, hc, hs, -⟩ | ⟨hn, ⟨hd, -, hs⟩ | ⟨-, nb, -, hd, -, -, hs⟩ | ⟨-, hd, -, hs⟩⟩ := h
  · exact .inl ⟨c, hc, hs⟩
  · exact .inr ⟨hn, .inl ⟨hd, hs⟩⟩
  · exact .inr ⟨hn, .inr (.inl ⟨nb, hd, hs⟩)⟩
  · exact .inr ⟨hn, .inr (.inr ⟨hd, hs⟩)⟩

/-- A rule for the transition of the core, from one for a rejection and one for each effect. -/
theorem coreStep_induction {P : CoreState × Response → Prop} (s : CoreState) (cmd : Command)
    (reject : ∀ c, P (raiseCause c s)) (init : P (runInit s)) (update : ∀ bytes, P (absorbAll s bytes, .ok))
    (final : P (finalize s)) : P (coreStep s cmd) := by
  obtain ⟨c, -, hs⟩ | ⟨-, ⟨-, hs⟩ | ⟨nb, -, hs⟩ | ⟨-, hs⟩⟩ := coreStep_cases s cmd <;> rw [hs]
  · exact reject c
  · exact init
  · exact update _
  · exact final

theorem coreStep_of_causeOf {s : CoreState} {cmd : Command} {c : Cause} (h : causeOf cmd.cw s.phase = some c) :
    coreStep s cmd = raiseCause c s := by
  obtain ⟨c', hc, hs⟩ | ⟨hn, -⟩ := coreStep_cases s cmd
  · rw [hs, Option.some.inj (hc.symm.trans h)]
  · rw [h] at hn; contradiction

theorem coreStep_init {s : CoreState} {cmd : Command} (h : decode cmd = .instr .init) : coreStep s cmd = runInit s := by
  rw [coreStep, h]

theorem coreStep_update {s : CoreState} {cmd : Command} {nb : Nat} {din : Operand}
    (h : decode cmd = .instr (.update nb din)) : coreStep s cmd = runUpdate nb din s := by
  rw [coreStep, h]

theorem coreStep_final {s : CoreState} {cmd : Command} (h : decode cmd = .instr .final) : coreStep s cmd = runFinal s := by
  rw [coreStep, h]

/-! ## The part of the core's state that is ever read again -/

/-- The core's part of `SameLive`: agreement in every item a later command or the host can read. -/
def SameLiveCore (s t : CoreState) : Prop :=
  s.seed = t.seed ∧ s.phase = t.phase ∧ s.err = t.err ∧ s.ecause = t.ecause ∧
    (s.phase ≠ .uninit → s.h1 = t.h1 ∧ s.h2 = t.h2) ∧
    (s.phase = .ready → s.len = t.len ∧ s.pendingBytes = t.pendingBytes)

theorem sameLive_iff (s t : State) :
    SameLive s t ↔ SameLiveCore s.toCoreState t.toCoreState ∧ s.port = t.port := by
  unfold SameLive SameLiveCore; tauto

theorem SameLiveCore.refl (s : CoreState) : SameLiveCore s s :=
  ⟨rfl, rfl, rfl, rfl, fun _ => ⟨rfl, rfl⟩, fun _ => ⟨rfl, rfl⟩⟩

theorem SameLiveCore.phase_eq {s t : CoreState} (h : SameLiveCore s t) : s.phase = t.phase := by
  obtain ⟨-, hphase, -⟩ := h
  exact hphase

/-- The pending bytes depend on the length counter and the carry cells only. -/
theorem pendingBytes_congr {s t : CoreState} (hl : s.len = t.len) (hc : s.carry = t.carry) :
    s.pendingBytes = t.pendingBytes := by
  unfold CoreState.pendingBytes
  rw [cnt_congr hl]
  exact cells_congr fun i _ => by rw [CoreState.cell, CoreState.cell, hc]

@[simp] theorem recordCause_pendingBytes (c : Cause) (s : CoreState) : (recordCause c s).pendingBytes = s.pendingBytes :=
  pendingBytes_congr (recordCause_len c s) (recordCause_carry c s)

theorem sameLiveCore_recordCause {s t : CoreState} (c : Cause) (h : SameLiveCore s t) :
    SameLiveCore (recordCause c s) (recordCause c t) := by
  obtain ⟨hseed, hphase, herr, hecause, hhash, hpending⟩ := h
  exact ⟨by simpa, by simpa, by simp, by simp [herr, hecause], by simpa, by simpa⟩

theorem runInit_pendingBytes (s : CoreState) : (runInit s).1.pendingBytes = [] := rfl

theorem sameLiveCore_runInit {s t : CoreState} (h : SameLiveCore s t) : SameLiveCore (runInit s).1 (runInit t).1 := by
  obtain ⟨hseed, -, herr, hecause, -, -⟩ := h
  refine ⟨hseed, rfl, herr, hecause, fun _ => ?_, fun _ => ⟨rfl, ?_⟩⟩
  · simp [hseed]
  · rw [runInit_pendingBytes, runInit_pendingBytes]

/-- Absorbing a byte in READY reads nothing but H1, H2, LEN and the pending bytes. -/
theorem sameLiveCore_absorb {s t : CoreState} (b : Byte) (hp : s.phase = .ready) (h : SameLiveCore s t) :
    SameLiveCore (absorb s b) (absorb t b) := by
  obtain ⟨hseed, hphase, herr, hecause, hhash, hpending⟩ := h
  obtain ⟨hh1, hh2⟩ := hhash (by simp [hp])
  obtain ⟨hlen, hbytes⟩ := hpending hp
  have hcnt := cnt_congr hlen
  have hnew : ((absorb s b).h1, (absorb s b).h2) = ((absorb t b).h1, (absorb t b).h2) ∧
      (absorb s b).pendingBytes = (absorb t b).pendingBytes := by
    rcases Nat.lt_or_ge s.cnt 15 with hlt | hge
    · obtain ⟨hs1, hs2⟩ := hash_absorb s b hlt
      obtain ⟨ht1, ht2⟩ := hash_absorb t b (hcnt ▸ hlt)
      rw [pendingBytes_absorb s b hlt, pendingBytes_absorb t b (hcnt ▸ hlt), hbytes, hs1, hs2, ht1, ht2, hh1, hh2]
      exact ⟨rfl, rfl⟩
    · have hfull : s.cnt = 15 := Nat.le_antisymm (Nat.le_of_lt_succ s.cnt_lt) hge
      have hfull' := hcnt.symm.trans hfull
      rw [pendingBytes_absorb_full s b hfull, pendingBytes_absorb_full t b hfull', hash_absorb_full s b hfull,
        hash_absorb_full t b hfull', hbytes, hh1, hh2]
      exact ⟨rfl, rfl⟩
  obtain ⟨hhash', hbytes'⟩ := hnew
  exact ⟨by simpa, by simpa, by simpa, by simpa, fun _ => Prod.mk.inj hhash', fun _ => ⟨by simpa, hbytes'⟩⟩

theorem sameLiveCore_absorbAll {s t : CoreState} (bytes : List Byte) (hp : s.phase = .ready) (h : SameLiveCore s t) :
    SameLiveCore (absorbAll s bytes) (absorbAll t bytes) := by
  induction bytes generalizing s t with
  | nil => exact h
  | cons b bytes ih => exact ih ((absorb_phase s b).trans hp) (sameLiveCore_absorb b hp h)

/-- FINAL in READY gives the same digest and leaves it in the accumulators; LEN and the pending bytes are not read again. -/
theorem sameLiveCore_finalize {s t : CoreState} (hp : s.phase = .ready) (h : SameLiveCore s t) :
    (finalize s).2 = (finalize t).2 ∧ SameLiveCore (finalize s).1 (finalize t).1 := by
  obtain ⟨hseed, -, herr, hecause, hhash, hpending⟩ := h
  obtain ⟨hh1, hh2⟩ := hhash (by simp [hp])
  obtain ⟨hlen, hbytes⟩ := hpending hp
  have hfinal := finalHash_congr hh1 hh2 hlen hbytes
  exact ⟨by simp [hfinal], by simpa, by simp, by simpa, by simpa, fun _ => by simp [hfinal], fun hr => by simp at hr⟩

theorem phaseCause_eq_none {p : Phase} (h : phaseCause p = none) : p = .ready := by
  cases p <;> simp_all [phaseCause]

theorem sameLiveCore_runUpdate {s t : CoreState} (nb : Nat) (din : Operand) (h : SameLiveCore s t) :
    (runUpdate nb din s).2 = (runUpdate nb din t).2 ∧ SameLiveCore (runUpdate nb din s).1 (runUpdate nb din t).1 := by
  have hphase := h.phase_eq
  unfold runUpdate
  rw [← hphase]
  split
  · exact ⟨rfl, sameLiveCore_recordCause _ h⟩
  · split
    · exact ⟨rfl, sameLiveCore_recordCause _ h⟩
    · next hready => exact ⟨rfl, sameLiveCore_absorbAll _ (phaseCause_eq_none hready) h⟩

theorem sameLiveCore_runFinal {s t : CoreState} (h : SameLiveCore s t) :
    (runFinal s).2 = (runFinal t).2 ∧ SameLiveCore (runFinal s).1 (runFinal t).1 := by
  have hphase := h.phase_eq
  unfold runFinal
  rw [← hphase]
  split
  · exact ⟨rfl, sameLiveCore_recordCause _ h⟩
  · next hready => exact sameLiveCore_finalize (phaseCause_eq_none hready) h

/-- A command answers the same to cores that agree in what can be read, and they agree in it afterwards. -/
theorem sameLiveCore_coreStep {s t : CoreState} (cmd : Command) (h : SameLiveCore s t) :
    (coreStep s cmd).2 = (coreStep t cmd).2 ∧ SameLiveCore (coreStep s cmd).1 (coreStep t cmd).1 := by
  match hd : decode cmd with
  | .instr .init => rw [coreStep_init hd, coreStep_init hd]; exact ⟨rfl, sameLiveCore_runInit h⟩
  | .instr (.update nb din) => rw [coreStep_update hd, coreStep_update hd]; exact sameLiveCore_runUpdate nb din h
  | .instr .final => rw [coreStep_final hd, coreStep_final hd]; exact sameLiveCore_runFinal h
  | .reserved r =>
    rw [coreStep_reserved s cmd r hd, coreStep_reserved t cmd r hd]
    exact ⟨rfl, sameLiveCore_recordCause _ h⟩

theorem status_congr {s t : CoreState} (hp : s.phase = t.phase) (he : s.err = t.err) (hc : s.ecause = t.ecause) :
    s.status = t.status := by
  simp only [CoreState.status, CoreState.ecauseCode, hp, he, hc]

/-- The host's view reads the accumulators in phase DONE only, and LEN and the carry cells never. -/
theorem observation_congr {s t : State} (h : SameLive s t) : observation s = observation t := by
  obtain ⟨-, hphase, herr, hecause, hport, hhash, -⟩ := h
  have hdout : s.dout = t.dout := by
    by_cases hd : s.phase = .done
    · obtain ⟨hh1, hh2⟩ := hhash (by simp [hd])
      rw [dout_done s hd, dout_done t (hphase ▸ hd), hh1, hh2]
    · rw [dout_not_done s hd, dout_not_done t (hphase ▸ hd), hport]
  rw [observation, observation, status_congr hphase herr hecause, hdout, hport]

/-! ## The invariant -/

/-- The core's part of the invariant: `State.Inv` reads nothing on the port. -/
def CoreState.Inv (s : CoreState) : Prop := Memory.wf s.carry = true ∧ s.err = s.ecause.isSome

theorem recordCause_inv {s : CoreState} (c : Cause) (h : s.Inv) : (recordCause c s).Inv := by
  obtain ⟨hwf, herr⟩ := h
  refine ⟨by rwa [recordCause_carry], ?_⟩
  rw [recordCause_err, recordCause_ecause]
  split
  · next he => rw [← herr, he]
  · rfl

theorem coreStep_inv {s : CoreState} (cmd : Command) (h : s.Inv) : (coreStep s cmd).1.Inv := by
  obtain ⟨hwf, herr⟩ := h
  refine coreStep_induction (P := fun r => r.1.Inv) s cmd ?reject ?init ?update ?final
  case reject => exact fun c => recordCause_inv c ⟨hwf, herr⟩
  case init => exact ⟨hwf, herr⟩
  case update => exact fun bytes => ⟨absorbAll_wf s bytes hwf, by rwa [absorbAll_err, absorbAll_ecause]⟩
  case final => exact ⟨by rwa [finalize_carry], by rwa [finalize_err, finalize_ecause]⟩

theorem reset_inv (v : Seed) : (CoreState.reset v).Inv := ⟨memory_wf_nil, rfl⟩

/-! ## The message absorbed in READY -/

theorem decode_initWord (din : Operand) : decode ⟨0x01#8, din⟩ = .instr .init := by
  rw [decode_word]; rfl

theorem absorbed_nil_runInit (s : CoreState) : Absorbed [] (runInit s).1 := ⟨rfl, rfl, rfl, rfl, rfl⟩

/-- A rejection changes no item R20 speaks of. -/
theorem absorbed_recordCause {msg : List Byte} {s : CoreState} (c : Cause) (h : Absorbed msg s) :
    Absorbed msg (recordCause c s) := by
  obtain ⟨hp, hlen, hcnt, htail, hhash⟩ := h
  exact ⟨by simpa, by simpa, by rwa [cnt_congr (recordCause_len c s)], by simpa, by simpa⟩

/-- A beat of at most 16 bytes appends to the message: it completes a block (`absorbAll_long`) or it does not. -/
theorem absorbed_absorbAll {msg bytes : List Byte} {s : CoreState} (h : Absorbed msg s) (hb : bytes.length ≤ 16) :
    Absorbed (msg ++ bytes) (absorbAll s bytes) := by
  obtain ⟨hp, hlen, hcnt, htail, hhash⟩ := h
  have hl : (msg ++ bytes).length = msg.length + bytes.length := List.length_append
  refine ⟨by simpa, by rw [absorbAll_len, hlen, hl, BitVec.ofNat_add], by rw [absorbAll_cnt, hcnt, hl]; omega, ?_⟩
  rw [absorbAll_seed]
  rcases Nat.lt_or_ge (s.cnt + bytes.length) 16 with hlt | hge
  · obtain ⟨hpend, h1, h2⟩ := absorbAll_short s bytes (by omega)
    have hsame : (msg ++ bytes).length / 16 = msg.length / 16 := by omega
    rw [hpend, h1, h2, htail, tailOf_same msg bytes hsame, mixBlocks_same s.seed msg bytes hsame]
    exact ⟨rfl, hhash⟩
  · obtain ⟨hpend, hmix⟩ := absorbAll_long s bytes hge hb
    have hnext : (msg ++ bytes).length / 16 = msg.length / 16 + 1 := by omega
    rw [hpend, hmix, htail, tailOf_next msg bytes hnext, mixBlocks_next s.seed msg bytes hnext, ← hhash]
    exact ⟨rfl, rfl⟩

/-! ## The error record -/

/-- The core with another error record. -/
def setErrorRecord (e : Bool) (c : Option Cause) (s : CoreState) : CoreState := { s with err := e, ecause := c }

theorem setErrorRecord_restore (e : Bool) (c : Option Cause) (s : CoreState) :
    setErrorRecord s.err s.ecause (setErrorRecord e c s) = s := rfl

/-- A rejection writes the error record and nothing else. -/
theorem recordCause_eq (c : Cause) (s : CoreState) :
    recordCause c s = setErrorRecord true (if s.err = true then s.ecause else some c) s := by
  unfold recordCause setErrorRecord
  split
  · next he => rw [← he]
  · rfl

theorem absorb_setErrorRecord (e : Bool) (c : Option Cause) (s : CoreState) (b : Byte) :
    absorb (setErrorRecord e c s) b = setErrorRecord e c (absorb s b) := by
  by_cases h : s.cnt = 15
  · have h' : (setErrorRecord e c s).cnt = 15 := h
    rw [absorb, absorb, if_pos h, if_pos h']; rfl
  · have h' : (setErrorRecord e c s).cnt ≠ 15 := h
    rw [absorb, absorb, if_neg h, if_neg h']; rfl

theorem absorbAll_setErrorRecord (e : Bool) (c : Option Cause) (s : CoreState) (bytes : List Byte) :
    absorbAll (setErrorRecord e c s) bytes = setErrorRecord e c (absorbAll s bytes) := by
  induction bytes generalizing s with
  | nil => rfl
  | cons b bytes ih => rw [absorbAll_cons, absorbAll_cons, absorb_setErrorRecord, ih]

/-- Two outcomes of a command that differ in the error record at most: with that of the second, the first is the second. -/
def EqUpToErrorRecord (r r' : CoreState × Response) : Prop :=
  r.2 = r'.2 ∧ setErrorRecord r'.1.err r'.1.ecause r.1 = r'.1

theorem answer_eqUpToErrorRecord {r r' : CoreState × Response} (h : EqUpToErrorRecord r r') (s : State) :
    { answer r s with err := r'.1.err, ecause := r'.1.ecause } = answer r' s := by
  obtain ⟨hresponse, hcore⟩ := h
  calc { answer r s with err := r'.1.err, ecause := r'.1.ecause }
      = answer (setErrorRecord r'.1.err r'.1.ecause r.1, r.2) s := rfl
    _ = answer r' s := by rw [hcore, hresponse]

theorem raiseCause_eqUpToErrorRecord (e : Bool) (c : Option Cause) (c' : Cause) (s : CoreState) :
    EqUpToErrorRecord (raiseCause c' (setErrorRecord e c s)) (raiseCause c' s) :=
  ⟨rfl, by rw [raiseCause_fst, raiseCause_fst, recordCause_eq, recordCause_eq]; rfl⟩

theorem runUpdate_eqUpToErrorRecord (e : Bool) (c : Option Cause) (nb : Nat) (din : Operand) (s : CoreState) :
    EqUpToErrorRecord (runUpdate nb din (setErrorRecord e c s)) (runUpdate nb din s) := by
  have hphase : (setErrorRecord e c s).phase = s.phase := rfl
  unfold runUpdate
  rw [hphase]
  split
  · exact raiseCause_eqUpToErrorRecord ..
  · split
    · exact raiseCause_eqUpToErrorRecord ..
    · exact ⟨rfl, by rw [absorbAll_setErrorRecord, setErrorRecord_restore]⟩

theorem finalize_setErrorRecord (e : Bool) (c : Option Cause) (s : CoreState) :
    finalize (setErrorRecord e c s) = (setErrorRecord e c (finalize s).1, (finalize s).2) := by
  have hfinal : finalHash (setErrorRecord e c s) = finalHash s := finalHash_congr rfl rfl rfl rfl
  unfold finalize
  rw [hfinal]
  rfl

theorem runFinal_eqUpToErrorRecord (e : Bool) (c : Option Cause) (s : CoreState) :
    EqUpToErrorRecord (runFinal (setErrorRecord e c s)) (runFinal s) := by
  have hphase : (setErrorRecord e c s).phase = s.phase := rfl
  unfold runFinal
  rw [hphase]
  split
  · exact raiseCause_eqUpToErrorRecord ..
  · rw [finalize_setErrorRecord]; exact ⟨rfl, setErrorRecord_restore ..⟩

/-- Whatever the error record holds, a command does the same to everything else. -/
theorem coreStep_eqUpToErrorRecord (e : Bool) (c : Option Cause) (s : CoreState) (cmd : Command) :
    EqUpToErrorRecord (coreStep (setErrorRecord e c s) cmd) (coreStep s cmd) := by
  match hd : decode cmd with
  | .instr .init => rw [coreStep_init hd, coreStep_init hd]; exact ⟨rfl, rfl⟩
  | .instr (.update nb din) => rw [coreStep_update hd, coreStep_update hd]; exact runUpdate_eqUpToErrorRecord ..
  | .instr .final => rw [coreStep_final hd, coreStep_final hd]; exact runFinal_eqUpToErrorRecord ..
  | .reserved r =>
    rw [coreStep_reserved _ cmd r hd, coreStep_reserved s cmd r hd]
    exact raiseCause_eqUpToErrorRecord ..

/-- An accepted command leaves the error record. -/
theorem coreStep_errorRecord_accepted {s : CoreState} {cmd : Command} (h : causeOf cmd.cw s.phase = none) :
    (coreStep s cmd).1.err = s.err ∧ (coreStep s cmd).1.ecause = s.ecause := by
  obtain ⟨c, hc, -⟩ | ⟨-, ⟨-, hs⟩ | ⟨nb, -, hs⟩ | ⟨-, hs⟩⟩ := coreStep_cases s cmd
  · rw [h] at hc; contradiction
  · rw [hs]; exact ⟨rfl, rfl⟩
  · rw [hs]; exact ⟨absorbAll_err .., absorbAll_ecause ..⟩
  · rw [hs]; exact ⟨finalize_err s, finalize_ecause s⟩

theorem ecauseCode_some {s : CoreState} {c : Cause} (h : s.ecause = some c) : s.ecauseCode = c.code := by
  rw [CoreState.ecauseCode, h]

/-- While ERR is 0 the cause code is 0 (R16). -/
theorem ecauseCode_of_inv {s : CoreState} (h : s.Inv) (he : s.err = false) : s.ecauseCode = 0#3 := by
  obtain ⟨-, herr⟩ := h
  have hnone : s.ecause = none := by rw [he] at herr; simpa using herr.symm
  rw [CoreState.ecauseCode, hnone]

theorem causeCode_range (c : Cause) : 1 ≤ c.code.toNat ∧ c.code.toNat ≤ 4 := by cases c <;> decide

/-! ## SEED and LEN -/

theorem coreStep_seed (s : CoreState) (cmd : Command) : (coreStep s cmd).1.seed = s.seed :=
  coreStep_induction (P := fun r => r.1.seed = s.seed) s cmd (fun c => recordCause_seed c s) rfl
    (fun bytes => absorbAll_seed s bytes) (finalize_seed s)

theorem runFinal_len (s : CoreState) : (runFinal s).1.len = s.len := by
  unfold runFinal
  split
  · exact recordCause_len _ s
  · exact finalize_len s

theorem coreStep_update_len {s : CoreState} {cmd : Command} {nb : Nat} {din : Operand}
    (hd : decode cmd = .instr (.update nb din)) (hn : causeOf cmd.cw s.phase = none) :
    (coreStep s cmd).1.len = s.len + BitVec.ofNat 64 nb := by
  obtain ⟨c, hc, -⟩ | ⟨-, ⟨hd', -⟩ | ⟨nb', hd', hs⟩ | ⟨hd', -⟩⟩ := coreStep_cases s cmd
  · rw [hn] at hc; contradiction
  · simp [hd] at hd'
  · rw [hd] at hd'; cases hd'
    rw [hs, absorbAll_len, operandBytes_length]
  · simp [hd] at hd'

/-! ## STATUS and DOUT -/

/-- The four fields of an 8-bit word put together as STATUS is. -/
theorem statusFields_of_append : ∀ (cause : BitVec 3) (err : Bool) (phase : BitVec 2),
    (0#2 ++ cause ++ BitVec.ofBool err ++ phase).extractLsb' 0 2 = phase ∧
    (0#2 ++ cause ++ BitVec.ofBool err ++ phase).getLsbD 2 = err ∧
    (0#2 ++ cause ++ BitVec.ofBool err ++ phase).extractLsb' 3 3 = cause ∧
    (0#2 ++ cause ++ BitVec.ofBool err ++ phase).extractLsb' 6 2 = 0#2 := by decide

theorem status_eq {s : CoreState} {p : Phase} {e : Bool} {c : Option Cause} (hp : s.phase = p) (he : s.err = e)
    (hc : s.ecause = c) : s.status = 0#2 ++ (c.elim 0#3 Cause.code) ++ BitVec.ofBool e ++ p.code := by
  subst hp he hc
  unfold CoreState.status CoreState.ecauseCode
  cases s.ecause <;> rfl

/-- Byte `j` of the digest is lane `j` of the two accumulators side by side. -/
theorem digest_getElem? (h1 h2 : Word) (j : Nat) (hj : j < 16) :
    (digest h1 h2)[j]? = some ((h2 ++ h1 : Operand).extractLsb' (8 * j) 8) := by
  rcases Nat.lt_or_ge j 8 with hlt | hge
  · rw [BitVec.extractLsb'_append_eq_of_add_le (by omega), digest, List.getElem?_append_left (by rwa [le64_length])]
    simp [le64, hlt]
  · rw [BitVec.extractLsb'_append_eq_of_le (by omega), digest, List.getElem?_append_right (by rwa [le64_length]),
      le64_length, show 8 * j - 64 = 8 * (j - 8) by omega]
    simp [le64, show j - 8 < 8 by omega]

theorem digest_eq_lanes (h1 h2 : Word) :
    digest h1 h2 = (List.range 16).map fun j => (h2 ++ h1 : Operand).extractLsb' (8 * j) 8 := by
  refine List.ext_getElem? fun j => ?_
  rcases Nat.lt_or_ge j 16 with hj | hj
  · simp [digest_getElem? h1 h2 j hj, hj]
  · rw [List.getElem?_eq_none (by simpa [digest, le64_length] using hj), List.getElem?_eq_none (by simpa using hj)]

/-! ## Runs of commands -/

theorem runSteps_succ {s t : State} (h : step s = .next t) (n : Nat) : runSteps (n + 1) s = runSteps n t := by
  rw [runSteps, h]

/-- Step `k` of the run from `s`, counted from 0, answered with RC 0. -/
def AcceptedAt (s : State) (k : Nat) : Prop :=
  ∃ u r, runSteps (k + 1) s = .next u ∧ u.port.response = some r ∧ r.rc = 0#3

theorem acceptedAt_zero {s t : State} {r : Response} (h : step s = .next t) (hr : t.port.response = some r) :
    AcceptedAt s 0 ↔ r.rc = 0#3 := by
  unfold AcceptedAt
  rw [runSteps_succ h]
  simp [runSteps, hr]

theorem acceptedAt_succ {s t : State} (h : step s = .next t) (k : Nat) : AcceptedAt s (k + 1) ↔ AcceptedAt t k := by
  unfold AcceptedAt
  rw [runSteps_succ h]

theorem causeCode_ne_zero (c : Cause) : c.code ≠ 0#3 := by cases c <;> decide

/-- One command sets ERR exactly when its response reports a cause. -/
theorem coreStep_err_eq_false (s : CoreState) (cmd : Command) :
    (coreStep s cmd).1.err = false ↔ s.err = false ∧ (coreStep s cmd).2.rc = 0#3 := by
  refine coreStep_induction (P := fun r => r.1.err = false ↔ s.err = false ∧ r.2.rc = 0#3) s cmd
    ?reject ?init ?update ?final
  case reject => intro c; simp [Response.rc, causeCode_ne_zero]
  case init => simp [Response.rc]
  case update => intro bytes; simp [Response.rc]
  case final => simp [Response.rc]

/-! ## The obligations -/

/-- Settles O40: the host's view reads live items only, and each event maps live items to live items (by the first pending
event; for a command by the command decoded). -/
theorem unspecifiedValuesAreNeverObserved : Obligations.UnspecifiedValuesAreNeverObserved := by
  unfold Obligations.UnspecifiedValuesAreNeverObserved
  intro s t h
  refine ⟨observation_congr h, ?_⟩
  obtain ⟨hcore, hport⟩ := (sameLive_iff s t).1 h
  match hs : s.port.pending with
  | [] => exact ⟨s, t, step_idle s hs, step_idle t (hport ▸ hs), h⟩
  | .reset v :: rest =>
    refine ⟨_, _, step_resetEvent s v rest hs, step_resetEvent t v rest (hport ▸ hs), (sameLive_iff _ _).2 ⟨?_, ?_⟩⟩
    · exact SameLiveCore.refl (CoreState.reset v)
    · simp [applyReset, takeEvent, hport]
  | .command cmd :: rest =>
    obtain ⟨hresponse, hcore'⟩ := sameLiveCore_coreStep cmd hcore
    refine ⟨_, _, step_eq_answer_coreStep s cmd rest hs, step_eq_answer_coreStep t cmd rest (hport ▸ hs),
      (sameLive_iff _ _).2 ⟨hcore', ?_⟩⟩
    simp [answer, takeEvent, hport, hresponse]

/-- Settles O42, by the first pending event. -/
theorem stepKeepsTheInvariants : Obligations.StepKeepsTheInvariants := by
  unfold Obligations.StepKeepsTheInvariants
  intro s t h hstep
  match hs : s.port.pending with
  | [] =>
    rw [step_idle s hs] at hstep
    cases hstep; exact h
  | .reset v :: rest =>
    rw [step_resetEvent s v rest hs] at hstep
    cases hstep; exact reset_inv v
  | .command cmd :: rest =>
    rw [step_eq_answer_coreStep s cmd rest hs] at hstep
    cases hstep; exact coreStep_inv cmd h

/-- Settles O43: INIT starts the empty message; of the other commands only an accepted UPDATE adds to it. -/
theorem readyStateReflectsTheMessage : Obligations.ReadyStateReflectsTheMessage := by
  unfold Obligations.ReadyStateReflectsTheMessage
  constructor
  · intro s d rest h
    exact ⟨_, step_instr s _ rest .init h (decode_initWord d), absorbed_nil_runInit s.toCoreState⟩
  · intro s msg cmd rest habs h hinit hfinal
    have hready : s.phase = .ready := habs.1
    obtain ⟨c, -, hs, -, hnone⟩ | ⟨-, ⟨-, hw, -⟩ | ⟨-, nb, hnb, -, -, hbytes, hs⟩ | ⟨-, -, hw, -⟩⟩ :=
      step_command s cmd rest h
    · refine ⟨_, hs, ?_⟩
      rw [(hnone hready).2, List.append_nil]
      exact absorbed_recordCause c habs
    · exact absurd hw hinit
    · refine ⟨_, hs, ?_⟩
      rw [hbytes]
      exact absorbed_absorbAll habs (by rwa [operandBytes_length])
    · exact absurd hw hfinal

/-- Settles O11: of the state before, `applyReset` keeps the pending events and the counter only. -/
theorem resetEventGivesTheResetState : Obligations.ResetEventGivesTheResetState := by
  unfold Obligations.ResetEventGivesTheResetState
  intro s v rest h
  refine ⟨_, step_resetEvent s v rest h, rfl, rfl, rfl, rfl, reset_status v, dout_not_done _ (by simp), rfl, ?_⟩
  intro s' hpending hdraws
  rw [step_resetEvent s' v rest (hpending.trans h)]
  simp [applyReset, takeEvent, hdraws]

/-- Settles O35: a rejection is `recordCause`, an accepted command leaves the record, and no command reads it. -/
theorem errorRecordIsSticky : Obligations.ErrorRecordIsSticky := by
  unfold Obligations.ErrorRecordIsSticky
  refine ⟨fun s v rest h => ⟨_, step_resetEvent s v rest h, rfl, rfl⟩, fun s cmd rest h => ?_⟩
  refine ⟨_, step_eq_answer_coreStep s cmd rest h, ?first, ?later, ?accepted, ?consistent, ?unread⟩
  case first =>
    intro c hc he
    rw [answer_toCoreState, coreStep_of_causeOf hc, raiseCause_fst]
    exact ⟨recordCause_err c _, ecauseCode_some (by simp [he]), causeCode_range c⟩
  case later =>
    intro he
    cases hc : causeOf cmd.cw s.phase with
    | none =>
      obtain ⟨herr, hecause⟩ := coreStep_errorRecord_accepted hc
      exact ⟨herr.trans he, hecause⟩
    | some c =>
      rw [answer_toCoreState, coreStep_of_causeOf hc, raiseCause_fst]
      exact ⟨recordCause_err c _, by simp [he]⟩
  case accepted => exact coreStep_errorRecord_accepted
  case consistent => exact fun hinv he => ecauseCode_of_inv (coreStep_inv cmd hinv) he
  case unread =>
    intro e c
    refine ⟨_, step_eq_answer_coreStep { s with err := e, ecause := c } cmd rest h, ?_⟩
    exact answer_eqUpToErrorRecord (coreStep_eqUpToErrorRecord e c s.toCoreState cmd) (takeEvent rest s)

/-- Settles O36: no arm of the transition writes SEED, INIT widens it, and the two views do not read it. -/
theorem seedIsWrittenOnlyByReset : Obligations.SeedIsWrittenOnlyByReset := by
  unfold Obligations.SeedIsWrittenOnlyByReset
  refine ⟨rfl, fun s v rest h => ⟨_, step_resetEvent s v rest h, rfl⟩, fun s cmd rest h => ?_, fun s v => ⟨rfl, rfl⟩⟩
  refine ⟨_, step_eq_answer_coreStep s cmd rest h, coreStep_seed s.toCoreState cmd, fun hd => ?_⟩
  rw [answer_toCoreState, coreStep_init hd]
  exact ⟨rfl, rfl⟩

/-- Settles O37: INIT writes 0, absorbing counts its bytes, and neither FINAL nor a rejection writes LEN. -/
theorem lengthCountsAcceptedBytes : Obligations.LengthCountsAcceptedBytes := by
  unfold Obligations.LengthCountsAcceptedBytes
  refine ⟨fun s cmd rest h => ?_, fun s n => ⟨rfl, rfl⟩⟩
  refine ⟨_, step_eq_answer_coreStep s cmd rest h, ?init, ?update, ?final, ?rejected⟩
  case init => intro hd; rw [answer_toCoreState, coreStep_init hd]; rfl
  case update =>
    intro nb din hd hn
    have hlen := coreStep_update_len hd hn
    exact ⟨hlen, by rw [answer_toCoreState, hlen, BitVec.toNat_add, BitVec.toNat_ofNat]; omega⟩
  case final => intro hd; rw [answer_toCoreState, coreStep_final hd]; exact runFinal_len _
  case rejected => intro c hc; rw [answer_toCoreState, coreStep_of_causeOf hc]; exact recordCause_len c _

/-- Settles O38: the fields of the concatenation STATUS is; the examples by the phase and the error record of the next state. -/
theorem statusFields : Obligations.StatusFields := by
  unfold Obligations.StatusFields
  refine ⟨fun s => ?_, reset_status _, fun s he hc => ⟨?_, fun hp => ?_, fun hp => ?_⟩⟩
  · obtain ⟨hphase, herr, hcause, hzero⟩ := statusFields_of_append s.ecauseCode s.err s.phase.code
    exact ⟨hphase, herr, hcause, hzero, fun hinv he => hcause.trans (ecauseCode_of_inv hinv he)⟩
  · exact ⟨_, exec_init s, status_eq (s := (answer (runInit s.toCoreState) s).toCoreState) (p := .ready) rfl he hc⟩
  · exact ⟨_, exec_final_ready s hp, status_eq (finalize_phase _) ((finalize_err _).trans he) ((finalize_ecause _).trans hc)⟩
  · have hcause : phaseCause s.phase = some .uninit := by rw [hp]; rfl
    refine ⟨_, exec_final_phase s hcause, status_eq (c := some .uninit) ((recordCause_phase _ _).trans hp)
      (recordCause_err _ _) ?_⟩
    simp [he]

/-- Settles O39: DOUT is the accumulators side by side in DONE and the free value elsewhere; FINAL answers the accumulators
it leaves. -/
theorem doutShowsTheDigestOnlyWhenDone : Obligations.DoutShowsTheDigestOnlyWhenDone := by
  unfold Obligations.DoutShowsTheDigestOnlyWhenDone
  refine fun s => ⟨fun hd => ?_, fun hd => ?_, fun hr => ?_⟩
  · rw [dout_done s hd]
    refine ⟨?_, ?_, digest_getElem? s.h1 s.h2⟩
    · exact BitVec.extractLsb'_append_eq_right
    · exact BitVec.extractLsb'_append_eq_left
  · exact ⟨dout_not_done s hd, fun x y => (dout_not_done { s with h1 := x, h2 := y } hd).trans (dout_not_done s hd).symm⟩
  · refine ⟨_, exec_final_ready s hr, ?_⟩
    have hdone : (answer (finalize s.toCoreState) s).phase = .done := by rw [answer_toCoreState, finalize_phase]
    rw [dout_done _ hdone, answer_port_response, answer_toCoreState,
      finalize_h1, finalize_h2, finalize_snd, digest_eq_lanes]

/-- Settles O45, by induction on the commands: the first step, then the run from its next state. -/
theorem noErrorMeansNothingWasRejected : Obligations.NoErrorMeansNothingWasRejected := by
  unfold Obligations.NoErrorMeansNothingWasRejected
  intro cs
  induction cs with
  | nil => exact fun s rest _ => ⟨s, rfl, by simp⟩
  | cons cmd cs ih =>
    intro s rest h
    have hs := step_eq_answer_coreStep s cmd (cs.map HostEvent.command ++ rest) h
    obtain ⟨t, hrun, herr⟩ := ih (answer (coreStep s.toCoreState cmd) (takeEvent (cs.map HostEvent.command ++ rest) s))
      rest rfl
    refine ⟨t, (runSteps_succ hs _).trans hrun, ?_⟩
    change _ ↔ s.err = false ∧ ∀ k < cs.length + 1, AcceptedAt s k
    rw [Nat.forall_lt_succ_left, acceptedAt_zero hs rfl]
    simp only [acceptedAt_succ hs]
    rw [herr, answer_toCoreState, coreStep_err_eq_false, and_assoc]
    rfl

/-- Settles O41: no cell is listed and no cause recorded. -/
theorem resetMeetsTheInvariants : Obligations.ResetMeetsTheInvariants := by
  unfold Obligations.ResetMeetsTheInvariants
  exact reset_inv Config.seedDefault

end Sys2Proof.Machine

/-! Memory (20_memory.md): the lanes of the data operand, the carry cells a command stores to, and the word presented next. -/

namespace Sys2Proof.Machine

/-! ## The lanes of the data operand -/

theorem operandBytes_getElem? (din : Operand) {nb i : Nat} (h : i < nb) :
    (operandBytes din nb)[i]? = some (lane din i) := by
  simp [operandBytes, h]

/-- The byte string of an UPDATE reads the lanes below its count and no other (R34). -/
theorem operandBytes_congr {din din' : Operand} {nb : Nat} (h : ∀ i < nb, lane din i = lane din' i) :
    operandBytes din nb = operandBytes din' nb :=
  List.map_congr_left fun i hi => h i (List.mem_range.1 hi)

theorem exec_update_congr (s : State) {din din' : Operand} {nb : Nat}
    (h : operandBytes din nb = operandBytes din' nb) : exec (.update nb din) s = exec (.update nb din') s := by
  rw [exec_update, exec_update, runUpdate, runUpdate, h]

/-- Byte `o` of the word at bit `8 * k` of the operand is lane `k + o`. -/
theorem extractLsb'_byte (din : Operand) (k o : Nat) (ho : o < 8) :
    (din.extractLsb' (8 * k) 64).extractLsb' (8 * o) 8 = lane din (k + o) := by
  refine BitVec.eq_of_getLsbD_eq fun i hi => ?_
  have hbit : 8 * o + i < 64 := by omega
  simp [lane, hbit, Nat.mul_add, Nat.add_assoc]

/-- Eight bytes assembled are a word of the operand when each is the lane that stands there. -/
theorem le_eq_extractLsb' {bs : List Byte} (din : Operand) (k : Nat) (hlen : bs.length ≤ 8)
    (h : ∀ o < 8, bs[o]? = some (lane din (k + o))) : le bs = din.extractLsb' (8 * k) 64 := by
  refine word_ext fun o ho => ?_
  rw [le_byte bs o hlen ho, extractLsb'_byte din k o ho, List.getD, h o ho, Option.getD_some]

theorem le_operandBytes_low (din : Operand) : le ((operandBytes din 16).take 8) = din.extractLsb' 0 64 := by
  refine le_eq_extractLsb' din 0 (List.length_take_le ..) fun o ho => ?_
  rw [List.getElem?_take_of_lt ho, operandBytes_getElem? din (by omega), Nat.zero_add]

theorem le_operandBytes_high (din : Operand) : le ((operandBytes din 16).drop 8) = din.extractLsb' 64 64 := by
  refine le_eq_extractLsb' din 8 (by simp [operandBytes_length]) fun o ho => ?_
  rw [List.getElem?_drop, operandBytes_getElem? din (by omega)]

theorem pendingBytes_of_cnt_zero {s : CoreState} (h : s.cnt = 0) : s.pendingBytes = [] := by
  rw [CoreState.pendingBytes, h, cells_zero]

/-! ## The cells a command stores to -/

/-- Only an accepted UPDATE writes the carry buffer. -/
theorem exec_carry (s : State) (i : Instr) (h : ∀ nb din, i = .update nb din → 16 < nb ∨ s.phase ≠ .ready) :
    ∃ t, exec i s = .next t ∧ t.carry = s.carry := by
  obtain ⟨-, hs⟩ | ⟨c, hs⟩ | ⟨nb, din, hi, hnb, hready, -⟩ | ⟨-, -, hs⟩ := exec_cases i s
  · exact ⟨_, hs, rfl⟩
  · exact ⟨_, hs, recordCause_carry c _⟩
  · obtain hcount | hphase := h nb din hi
    · exact absurd hnb (Nat.not_le.2 hcount)
    · exact absurd hready hphase
  · exact ⟨_, hs, finalize_carry _⟩

/-! ## The word presented next -/

theorem decodeTableWord_eq_some {nbits w : Nat} {i : Instr} :
    decodeTableWord nbits w = some i ↔ decode (Command.ofTableWord nbits w) = .instr i := by
  unfold decodeTableWord
  cases decode (Command.ofTableWord nbits w) <;> simp [Decoded.toOption]

/-! ## The obligations -/

/-- Settles O18: an accepted UPDATE is `absorbAll`, whose bytes go to the cells from CNT on; no other command stores. -/
theorem onlyUpdateStoresAndOnlyToItsCells : Obligations.OnlyUpdateStoresAndOnlyToItsCells := by
  unfold Obligations.OnlyUpdateStoresAndOnlyToItsCells
  refine ⟨fun s nb din hready hnb => ⟨_, exec_update_ready nb din s hnb hready, fun i hi => ?_, fun a ha => ?_⟩, exec_carry⟩
  · have hlen := operandBytes_length din nb
    rw [answer_toCoreState, absorbAll_cell_at _ _ (by omega) i (by omega)]
    exact (List.getElem_eq_iff _).2 (operandBytes_getElem? din hi)
  · exact absorbAll_cell_other _ _ a (by rwa [operandBytes_length])

/-- Settles O19: the string of an UPDATE is made of the lanes below its count; 16 bytes with none pending are one block. -/
theorem lanesBeyondTheCountAreIgnored : Obligations.LanesBeyondTheCountAreIgnored := by
  unfold Obligations.LanesBeyondTheCountAreIgnored
  refine ⟨fun din nb i hi => operandBytes_getElem? din hi,
    fun s nb din din' h => exec_update_congr s (operandBytes_congr h), fun s din hready hcnt => ?_⟩
  obtain ⟨hpending, hmix⟩ := absorbAll_full s.toCoreState (operandBytes din 16) (by rw [hcnt, operandBytes_length])
  rw [pendingBytes_of_cnt_zero hcnt, List.nil_append, le_operandBytes_low, le_operandBytes_high] at hmix
  refine ⟨_, exec_update_ready 16 din s (by decide) hready, ?_⟩
  simp only [answer_toCoreState]
  exact ⟨hmix, hpending⟩

/-- Settles O9: the presented word is the first event, and taking it leaves the stream as it was. -/
theorem presentedWordIsTheNextCommand : Obligations.PresentedWordIsTheNextCommand := by
  unfold Obligations.PresentedWordIsTheNextCommand
  intro s nbits w i h
  exact step_instr (s.withFetchWord nbits w) _ s.port.pending i rfl (decodeTableWord_eq_some.1 h)

end Sys2Proof.Machine

/-! Encoding (30_encoding.md): decoding and encoding, the response of a command, pseudo-instructions and assembler lines. -/

namespace Sys2Proof.Machine

/-! ## Which word decodes to which command -/

theorem decode_finalWord (din : Operand) : decode ⟨0x03#8, din⟩ = .instr .final := by
  rw [decode_word]; rfl

theorem decode_updateWord {nb : Nat} (h : nb < 32) (din : Operand) :
    decode ⟨BitVec.ofNat 8 (2 + 4 * nb), din⟩ = .instr (.update nb din) := by
  obtain ⟨-, -, hop, hnb, hrsv⟩ := updateWord_fields ⟨nb, h⟩
  have hop' : Command.op ⟨BitVec.ofNat 8 (2 + 4 * nb), din⟩ = 0b10#2 := hop
  have hnb' : Command.nb ⟨BitVec.ofNat 8 (2 + 4 * nb), din⟩ = nb := hnb
  have hrsv' : Command.rsv ⟨BitVec.ofNat 8 (2 + 4 * nb), din⟩ = false := hrsv
  simp [decode, hop', hnb', hrsv']

/-- The decoder takes back what the encoder writes, for every count the field can hold. -/
theorem decode_encode {i : Instr} (h : i.wf = true) : decode (encode i) = .instr i := by
  cases i with
  | init => exact decode_initWord 0
  | update nb din => exact decode_updateWord (by simpa [Instr.wf] using h) din
  | final => exact decode_finalWord 0

/-- The decoder answers a command exactly for its own word, whatever the operand, which UPDATE takes over. -/
theorem decode_eq_instr_iff {c : Command} {i : Instr} :
    decode c = .instr i ↔ i.wf = true ∧ (encode i).cw = c.cw ∧ ∀ nb din, i = .update nb din → din = c.din := by
  obtain ⟨w, din⟩ := c
  constructor
  · intro hd
    obtain ⟨hd', rfl⟩ | ⟨hd', rfl⟩ | ⟨nb, hd', hnb, rfl⟩ | ⟨r, hd', -⟩ := decode_cases w din
    · cases hd.symm.trans hd'; exact ⟨rfl, rfl, by simp⟩
    · cases hd.symm.trans hd'; exact ⟨rfl, rfl, by simp⟩
    · cases hd.symm.trans hd'; exact ⟨by simpa [Instr.wf] using hnb, rfl, by simp⟩
    · cases hd.symm.trans hd'
  · rintro ⟨hwf, rfl, hdin⟩
    cases i with
    | init => exact decode_initWord din
    | update nb din' => exact hdin nb din' rfl ▸ decode_encode hwf
    | final => exact decode_finalWord din

theorem decode_init_iff {c : Command} : decode c = .instr .init ↔ c.cw = 0x01#8 := by
  simp [decode_eq_instr_iff, Instr.wf, encode, eq_comm]

theorem decode_final_iff {c : Command} : decode c = .instr .final ↔ c.cw = 0x03#8 := by
  simp [decode_eq_instr_iff, Instr.wf, encode, eq_comm]

theorem decode_update_iff {c : Command} {nb : Nat} {din : Operand} :
    decode c = .instr (.update nb din) ↔ nb < 32 ∧ c.cw = BitVec.ofNat 8 (2 + 4 * nb) ∧ din = c.din := by
  simp [decode_eq_instr_iff, Instr.wf, encode, eq_comm]

/-- The encoder writes no reserved word (R51). -/
theorem not_wordIsReserved_encode {i : Instr} (h : i.wf = true) : ¬ wordIsReserved (encode i).cw := by
  unfold wordIsReserved
  cases i with
  | init => decide
  | update nb din =>
    obtain ⟨-, -, hop, -, hrsv⟩ := updateWord_fields ⟨nb, by simpa [Instr.wf] using h⟩
    simp_all [encode]
  | final => decide

theorem not_wordIsReserved_of_decode {c : Command} {i : Instr} (h : decode c = .instr i) : ¬ wordIsReserved c.cw := by
  obtain ⟨hwf, hw, -⟩ := decode_eq_instr_iff.1 h
  exact hw ▸ not_wordIsReserved_encode hwf

theorem decode_reserved_iff {c : Command} : (∃ r, decode c = .reserved r) ↔ wordIsReserved c.cw := by
  obtain ⟨hd, -⟩ | ⟨hd, -⟩ | ⟨nb, hd, -⟩ | ⟨r, hd, hw⟩ := decode_cases c.cw c.din
  · exact iff_of_false (by simp [hd]) (not_wordIsReserved_of_decode hd)
  · exact iff_of_false (by simp [hd]) (not_wordIsReserved_of_decode hd)
  · exact iff_of_false (by simp [hd]) (not_wordIsReserved_of_decode hd)
  · exact iff_of_true ⟨r, hd⟩ hw

/-- A word is reserved when it is none of the three commands. -/
theorem decode_reserved_iff_no_command {c : Command} : (∃ r, decode c = .reserved r) ↔
    ¬ decode c = .instr .init ∧ ¬ (∃ nb, decode c = .instr (.update nb c.din)) ∧ ¬ decode c = .instr .final := by
  obtain ⟨hd, -⟩ | ⟨hd, -⟩ | ⟨nb, hd, -⟩ | ⟨r, hd, -⟩ := decode_cases c.cw c.din <;> simp [hd]

set_option maxRecDepth 10000 in
/-- The UPDATE row of the opcode table fixes `rsv` and `op`, and leaves the count (R50). -/
theorem updateRow_iff : ∀ w : CommandWord,
    w &&& 0x83#8 = 0x02#8 ↔ w = BitVec.ofNat 8 (2 + 4 * (w.extractLsb' 2 5).toNat) := by decide

theorem decode_update_iff_row {c : Command} :
    (∃ nb, decode c = .instr (.update nb c.din)) ↔ c.cw &&& 0x83#8 = 0x02#8 := by
  rw [updateRow_iff]
  constructor
  · rintro ⟨nb, hd⟩
    obtain ⟨hnb, hw, -⟩ := decode_update_iff.1 hd
    obtain ⟨-, -, -, hfield, -⟩ := updateWord_fields ⟨nb, hnb⟩
    rw [hw, hfield]
  · exact fun hw => ⟨_, decode_update_iff.2 ⟨(c.cw.extractLsb' 2 5).isLt, hw, rfl⟩⟩

/-! ## The response of a command -/

/-- RC is 0 or the code of the cause R115 finds. -/
theorem coreStep_rc (s : CoreState) (cmd : Command) :
    (coreStep s cmd).2.rc = (causeOf cmd.cw s.phase).elim 0#3 Cause.code := by
  obtain ⟨c, hc, hs⟩ | ⟨hn, ⟨-, hs⟩ | ⟨nb, -, hs⟩ | ⟨-, hs⟩⟩ := coreStep_cases s cmd
  · rw [hs, hc]; rfl
  · rw [hs, hn]; rfl
  · rw [hs, hn]; rfl
  · rw [hs, hn]; rfl

theorem coreStep_okDigest_iff {s : CoreState} {cmd : Command} :
    (∃ d, (coreStep s cmd).2 = .okDigest d) ↔ cmd.cw = 0x03#8 ∧ s.phase = .ready := by
  rw [← decode_final_iff]
  obtain ⟨c, hc, hs⟩ | ⟨hn, ⟨hd, hs⟩ | ⟨nb, hd, hs⟩ | ⟨hd, hs⟩⟩ := coreStep_cases s cmd
  · refine iff_of_false (by simp [hs]) fun ⟨hd, hp⟩ => ?_
    rw [decode_final_iff.1 hd, causeOf_final, hp] at hc
    cases hc
  · simp [hs, hd]
  · simp [hs, hd]
  · rw [decode_final_iff.1 hd, causeOf_final] at hn
    simp [hs, hd, phaseCause_eq_none hn]

/-- A digest answered is that of the accumulators left, in phase DONE. -/
theorem coreStep_okDigest {s : CoreState} {cmd : Command} {d : List Byte} (h : (coreStep s cmd).2 = .okDigest d) :
    (coreStep s cmd).1.phase = .done ∧ d = digest (coreStep s cmd).1.h1 (coreStep s cmd).1.h2 := by
  obtain ⟨hw, hp⟩ := coreStep_okDigest_iff.1 ⟨d, h⟩
  rw [coreStep_final (decode_final_iff.2 hw), runFinal_ready s hp] at h ⊢
  cases h
  simp

/-! ## The bytes of a packed operand -/

/-- A string of at most 16 bytes reads back from the lanes it was packed into. -/
theorem operandBytes_packLanes {bytes : List Byte} (h : bytes.length ≤ 16) :
    operandBytes (packLanes bytes) bytes.length = bytes := by
  refine List.ext_getElem (operandBytes_length _ _) fun i _ hi => ?_
  simp [operandBytes, lane, packLanes_lane bytes i h, hi]

theorem acceptedBytes_updateOf {bytes : List Byte} (h : bytes.length ≤ 16) :
    acceptedBytes (encode (updateOf bytes)) = bytes := by
  have hd : decode (encode (updateOf bytes)) = .instr (.update bytes.length (packLanes bytes)) :=
    decode_updateWord (by omega) _
  simp [acceptedBytes, hd, h, operandBytes_packLanes h]

/-! ## UPDATEL, beat by beat -/

/-- A rule for byte strings cut into beats of 16: it holds of a string shorter than a beat, and a beat may be put before. -/
theorem beats_induction {P : List Byte → Prop} (short : ∀ bytes, bytes.length < 16 → P bytes)
    (beat : ∀ b bytes, b.length = 16 → P bytes → P (b ++ bytes)) (bytes : List Byte) : P bytes := by
  rcases Nat.lt_or_ge bytes.length 16 with hlt | hge
  · exact short bytes hlt
  · rw [← List.take_append_drop 16 bytes]
    exact beat _ _ (List.length_take_of_le hge) (beats_induction short beat (bytes.drop 16))
termination_by bytes.length
decreasing_by simp; omega

theorem updatelExpansion_short {bytes : List Byte} (h : bytes.length < 16) :
    updatelExpansion bytes = if bytes.length = 0 then [] else [updateOf bytes] := by
  simp [updatelExpansion, Nat.div_eq_of_lt h, Nat.mod_eq_of_lt h]

theorem updatelExpansion_beat {b : List Byte} (bytes : List Byte) (h : b.length = 16) :
    updatelExpansion (b ++ bytes) = updateOf b :: updatelExpansion bytes := by
  have hdiv : (b ++ bytes).length / 16 = bytes.length / 16 + 1 := by simp [h]
  have hmod : (b ++ bytes).length % 16 = bytes.length % 16 := by simp [h]
  have hdrop : ∀ j, (b ++ bytes).drop (16 * (j + 1)) = bytes.drop (16 * j) := fun j => by
    rw [Nat.mul_succ, Nat.add_comm, ← List.drop_drop, List.drop_left' h]
  rw [updatelExpansion, updatelExpansion, hdiv, hmod, hdrop, List.range_succ_eq_map]
  simp [hdrop, List.take_left' h, Function.comp_def]

/-- UPDATEL carries its bytes in order (R55). -/
theorem updatelExpansion_bytes (bytes : List Byte) :
    ((updatelExpansion bytes).flatMap fun i => acceptedBytes (encode i)) = bytes := by
  induction bytes using beats_induction with
  | short bytes h =>
    rw [updatelExpansion_short h]
    split
    · next hnil => rw [List.length_eq_zero_iff.1 hnil, List.flatMap_nil]
    · rw [List.flatMap_singleton, acceptedBytes_updateOf h.le]
  | beat b bytes h ih => rw [updatelExpansion_beat bytes h, List.flatMap_cons, acceptedBytes_updateOf h.le, ih]

theorem updatelExpansion_words (bytes : List Byte) :
    ((updatelExpansion bytes).map fun i => (encode i).cw) =
      List.replicate (bytes.length / 16) 0x42#8 ++
        (if bytes.length % 16 = 0 then [] else [BitVec.ofNat 8 (0x02 + 4 * (bytes.length % 16))]) := by
  induction bytes using beats_induction with
  | short bytes h =>
    rw [updatelExpansion_short h, Nat.div_eq_of_lt h, Nat.mod_eq_of_lt h]
    split <;> rfl
  | beat b bytes h ih =>
    rw [updatelExpansion_beat bytes h, List.map_cons, ih]
    simp [encode, updateOf, h, List.replicate_succ]

theorem mem_updatelExpansion {bytes : List Byte} {i : Instr} (h : i ∈ updatelExpansion bytes) :
    ∃ b : List Byte, b.length ≤ 16 ∧ i = updateOf b := by
  induction bytes using beats_induction with
  | short bytes hlt =>
    rw [updatelExpansion_short hlt] at h
    split at h
    · cases h
    · exact ⟨bytes, hlt.le, List.mem_singleton.1 h⟩
  | beat b bytes hb ih =>
    rw [updatelExpansion_beat bytes hb] at h
    obtain rfl | h := List.mem_cons.1 h
    · exact ⟨b, hb.le, rfl⟩
    · exact ih h

theorem updatelExpansion_words_ne {bytes : List Byte} :
    ∀ c ∈ (updatelExpansion bytes).map encode, c.cw ≠ 0x01#8 ∧ c.cw ≠ 0x03#8 := by
  intro c hc
  obtain ⟨i, hi, rfl⟩ := List.mem_map.1 hc
  obtain ⟨b, hb, rfl⟩ := mem_updatelExpansion hi
  obtain ⟨hinit, hfinal, -⟩ := updateWord_fields ⟨b.length, by omega⟩
  exact ⟨hinit, hfinal⟩

/-! ## A whole message, from INIT to FINAL -/

theorem runSteps_add {s t : State} {m : Nat} (h : runSteps m s = .next t) (n : Nat) :
    runSteps (m + n) s = runSteps n t := by
  induction m generalizing s with
  | zero => cases h; rw [Nat.zero_add]
  | succ m ih =>
    cases hs : step s with
    | next u => rw [Nat.add_right_comm, runSteps_succ hs]; exact ih ((runSteps_succ hs m).symm.trans h)
    | fault f => rw [runSteps, hs] at h; cases h
    | refused r => rw [runSteps, hs] at h; cases h

/-- FINAL's digest is the hash of the message absorbed. -/
theorem digest_finalHash {msg : List Byte} {s : CoreState} (h : Absorbed msg s) :
    digest (finalHash s).1 (finalHash s).2 = hashMessage s.seed msg := by
  obtain ⟨-, hlen, -, htail, hhash⟩ := h
  rw [finalHash_def, tailWord1_eq, tailWord2_eq, htail, hlen, hashMessage, ← hhash, tailmix_def]

/-- Commands other than INIT and FINAL add the bytes they carry to the message, the rejected ones none. -/
theorem runSteps_absorbs (cs : List Command) {s : State} {msg : List Byte} {rest : List HostEvent}
    (habs : Absorbed msg s.toCoreState) (hcs : ∀ c ∈ cs, c.cw ≠ 0x01#8 ∧ c.cw ≠ 0x03#8)
    (h : s.port.pending = cs.map HostEvent.command ++ rest) :
    ∃ t, runSteps cs.length s = .next t ∧ t.seed = s.seed ∧ t.port.pending = rest ∧
      Absorbed (msg ++ cs.flatMap acceptedBytes) t.toCoreState := by
  induction cs generalizing s msg with
  | nil => exact ⟨s, rfl, rfl, h, by simpa using habs⟩
  | cons c cs ih =>
    obtain ⟨⟨hinit, hfinal⟩, hcs⟩ := List.forall_mem_cons.1 hcs
    have hs := step_eq_answer_coreStep s c _ h
    obtain ⟨t, ht, habs'⟩ := readyStateReflectsTheMessage.2 s msg c _ habs h hinit hfinal
    obtain rfl := Host.Outcome.next.inj (hs.symm.trans ht)
    obtain ⟨u, hrun, hseed, hpending, habs''⟩ := ih habs' hcs rfl
    refine ⟨u, (runSteps_succ hs _).trans hrun, hseed.trans (coreStep_seed _ c), hpending, ?_⟩
    rwa [List.flatMap_cons, ← List.append_assoc]

/-- INIT, commands other than INIT and FINAL, then FINAL: the digest of the bytes the accepted commands carry. -/
theorem runSteps_message (cs : List Command) {s : State} {d1 d2 : Operand} {rest : List HostEvent}
    (hcs : ∀ c ∈ cs, c.cw ≠ 0x01#8 ∧ c.cw ≠ 0x03#8)
    (h : s.port.pending = .command ⟨0x01#8, d1⟩ :: (cs.map HostEvent.command ++ .command ⟨0x03#8, d2⟩ :: rest)) :
    ∃ t, runSteps (cs.length + 2) s = .next t ∧ t.phase = .done ∧ t.port.pending = rest ∧
      t.port.response = some (.okDigest (hashMessage s.seed (cs.flatMap acceptedBytes))) := by
  have hinit := step_instr s _ _ .init h (decode_initWord d1)
  rw [exec_init] at hinit
  obtain ⟨u, hrun, hseed, hpending, habs⟩ := runSteps_absorbs cs
    (s := answer (runInit s.toCoreState) (takeEvent _ s)) (absorbed_nil_runInit s.toCoreState) hcs rfl
  have hfinal := step_instr u _ rest .final hpending (decode_finalWord d2)
  have hready : (takeEvent rest u).phase = .ready := habs.1
  rw [exec_final_ready _ hready] at hfinal
  have hend := (runSteps_succ hinit _).trans ((runSteps_add hrun 1).trans (runSteps_succ hfinal 0))
  refine ⟨_, hend, finalize_phase _, rfl, ?_⟩
  rw [answer_port_response, finalize_snd, takeEvent_toCoreState, digest_finalHash habs, hseed]
  rfl

/-! ## The obligations -/

/-- Settles O2, by the command: INIT and FINAL have one word each, and the fields of an UPDATE word give back its count. -/
theorem decodeOfEncodeIsTheCommand : Obligations.DecodeOfEncodeIsTheCommand := by
  unfold Obligations.DecodeOfEncodeIsTheCommand
  exact fun i => decode_encode

/-- Settles O3: the decoder answers a command for its own word only. -/
theorem encodeOfDecodeIsTheWord : Obligations.EncodeOfDecodeIsTheWord := by
  unfold Obligations.EncodeOfDecodeIsTheWord
  intro c i hd
  obtain ⟨hwf, hw, hdin⟩ := decode_eq_instr_iff.1 hd
  refine ⟨hwf, hw, ?_⟩
  rintro nb din rfl
  exact congrArg₂ Command.mk hw (hdin nb din rfl)

/-- Settles O4: a match under the mask 0xFF is the word itself, and the UPDATE row leaves the count free. -/
theorem decodingFollowsTheOpcodeMap : Obligations.DecodingFollowsTheOpcodeMap := by
  unfold Obligations.DecodingFollowsTheOpcodeMap
  intro c
  have hmask : c.cw &&& 0xFF#8 = c.cw := BitVec.and_allOnes
  rw [hmask, ← decode_init_iff, ← decode_final_iff, ← decode_update_iff_row]
  refine ⟨Iff.rfl, Iff.rfl, Iff.rfl, decode_reserved_iff_no_command, fun nb din hd => ?_, fun nb din s _ hnb => ?_⟩
  · obtain ⟨hnb, hw, hdin⟩ := decode_update_iff.1 hd
    exact ⟨Nat.le_of_lt_succ hnb, hdin, hw⟩
  · rw [exec_update_count nb din s hnb, answer_raiseCause]

set_option maxRecDepth 10000 in
/-- Settles O5: the words by the fields of R51, their numbers by running the decoder over all 256, and the rejection. -/
theorem reservedWordsAreRejected : Obligations.ReservedWordsAreRejected := by
  unfold Obligations.ReservedWordsAreRejected
  refine ⟨fun c => decode_reserved_iff, by decide, by decide, by decide, fun s c r rest h hd => ?_⟩
  rw [step_reserved s c rest r h hd, ← answer_raiseCause, takeEvent_toCoreState]

/-- Settles O34, by what the core's transition can do: a rejection answers its cause, and of the accepted commands FINAL alone
answers bytes, the lanes of the accumulators it leaves. -/
theorem responseCodes : Obligations.ResponseCodes := by
  unfold Obligations.ResponseCodes
  intro s cmd rest h
  refine ⟨_, _, step_eq_answer_coreStep s cmd rest h, answer_port_response _ _, ?_⟩
  rw [coreStep_rc]
  refine ⟨fun hn => by rw [hn]; rfl, fun c hc => ?cause, ?range, coreStep_okDigest_iff, fun d hd => ?lanes⟩
  case cause =>
    obtain ⟨hone, -⟩ := causeCode_range c
    rw [hc]; exact ⟨rfl, hone⟩
  case range =>
    cases causeOf cmd.cw s.phase with
    | none => decide
    | some c => exact (causeCode_range c).2
  case lanes =>
    obtain ⟨hdone, rfl⟩ := coreStep_okDigest hd
    rw [dout_done _ hdone, digest_eq_lanes]
    rfl

/-- Settles O47: NOP is UPDATE 0, UPDATEL goes beat by beat, and HASH is a whole message. -/
theorem pseudoInstructionExpansions : Obligations.PseudoInstructionExpansions := by
  unfold Obligations.PseudoInstructionExpansions
  refine ⟨⟨_, rfl, rfl, fun s => ⟨fun hp => ?ready, fun hp => ?uninit, fun hp => ?done⟩⟩,
    fun bytes => ⟨updatelExpansion_bytes bytes, updatelExpansion_words bytes, rfl⟩, fun s bytes rest h => ?hash⟩
  case ready => exact exec_update_ready 0 0 s (by decide) hp
  case uninit => rw [exec_update_phase 0 0 s (by decide) (by rw [hp]; rfl), answer_raiseCause]
  case done => rw [exec_update_phase 0 0 s (by decide) (by rw [hp]; rfl), answer_raiseCause]
  case hash =>
    obtain ⟨t, hrun, -, hpending, hresponse⟩ := runSteps_message (d1 := 0) (d2 := 0) (rest := rest) _
      updatelExpansion_words_ne (by simpa [Pseudo.expand, encode, Function.comp_def] using h)
    refine ⟨t, ?_, hpending, ?_⟩
    · simpa [Pseudo.expand] using hrun
    · rwa [List.flatMap_map, updatelExpansion_bytes] at hresponse

/-- Settles O48: an UPDATE line packs its bytes, and a packed string reads back. -/
theorem assemblerLinesGiveTheirEvents : Obligations.AssemblerLinesGiveTheirEvents := by
  unfold Obligations.AssemblerLinesGiveTheirEvents
  refine ⟨rfl, rfl, fun _ => rfl, fun _ => rfl, fun nb bytes hwf hnb => ?_⟩
  obtain ⟨-, rfl⟩ : nb < 32 ∧ bytes.length = nb := by simpa [AsmLine.wf, hnb] using hwf
  refine ⟨_, rfl, rfl, decode_updateWord (by omega) _, operandBytes_packLanes hnb, fun i hi => ?_⟩
  exact (packLanes_lane bytes i hnb).trans (List.getD_eq_default _ _ hi)

/-- Settles O1: the words are those of the commands, and the fields of the three others name the reason. -/
theorem decodesWordsWrittenFromTheEncoding : Obligations.DecodesWordsWrittenFromTheEncoding := by
  unfold Obligations.DecodesWordsWrittenFromTheEncoding
  intro din
  refine ⟨decode_initWord din, decode_updateWord (nb := 0) (by decide) din, decode_updateWord (nb := 16) (by decide) din,
    decode_updateWord (nb := 31) (by decide) din, decode_finalWord din, ?_, ?_, ?_⟩ <;> rw [decode_word] <;> rfl

end Sys2Proof.Machine

/-! Datapath functions (40_datapath_functions.md): where the bits and the bytes go, the mixing steps line by line, and what can be
undone. -/

namespace Sys2Proof.Machine

/-! ## Rotation -/

/-- The rotation R64 writes as two shifts is the library's. -/
theorem rotl64_eq_rotateLeft (x : Word) (n : Nat) (h : 1 ≤ n ∧ n ≤ 63) : rotl64 x n h = x.rotateLeft n :=
  (BitVec.rotateLeft_eq_rotateLeftAux_of_lt (by omega)).symm

theorem rotl64_getLsbD (x : Word) (n : Nat) (h : 1 ≤ n ∧ n ≤ 63) {i : Nat} (hi : i < 64) :
    (rotl64 x n h).getLsbD ((i + n) % 64) = x.getLsbD i := by
  have hn : n % 64 = n := Nat.mod_eq_of_lt (by omega)
  rw [rotl64_eq_rotateLeft, BitVec.getLsbD_rotateLeft, hn]
  rcases Nat.lt_or_ge (i + n) 64 with hlt | hwrap
  · simp [Nat.mod_eq_of_lt hlt, hlt]
  · have hpos : (i + n) % 64 = i + n - 64 := by omega
    have hlow : i + n - 64 < n := by omega
    have hsrc : 64 - n + (i + n - 64) = i := by omega
    simp [hpos, hlow, hsrc]

theorem rotl64_injective (n : Nat) (h : 1 ≤ n ∧ n ≤ 63) : Function.Injective fun x => rotl64 x n h := by
  intro x y hxy
  refine BitVec.eq_of_getLsbD_eq fun i hi => ?_
  rw [← rotl64_getLsbD x n h hi, ← rotl64_getLsbD y n h hi]
  exact congrArg (BitVec.getLsbD · _) hxy

/-! ## Byte assembly -/

@[simp] theorem le_nil : le [] = 0 := rfl

theorem leFrom_append_singleton (bs : List Byte) (b : Byte) (k : Nat) :
    leFrom k (bs ++ [b]) = leFrom k bs + (b.setWidth 64 <<< (8 * (k + bs.length))) := by
  induction bs generalizing k with
  | nil => simp [leFrom]
  | cons c bs ih =>
    rw [List.cons_append, leFrom, ih (k + 1), leFrom, BitVec.add_assoc, List.length_cons,
      show k + 1 + bs.length = k + (bs.length + 1) by omega]

theorem le_append_singleton (bs : List Byte) (b : Byte) :
    le (bs ++ [b]) = le bs + (b.setWidth 64 <<< (8 * bs.length)) := by
  rw [le, leFrom_append_singleton, Nat.zero_add, le]

/-- The next byte takes bit positions the bytes before it leave clear (R67). -/
theorem le_and_shiftedByte (bs : List Byte) (b : Byte) (h : bs.length ≤ 7) :
    le bs &&& (b.setWidth 64 <<< (8 * bs.length)) = 0#64 := by
  refine BitVec.eq_of_getLsbD_eq fun i hi => ?_
  rw [BitVec.getLsbD_and, le_getLsbD bs i (by omega) hi, shiftedByte_getLsbD b bs.length i hi]
  by_cases hpos : bs.length = i / 8
  · simp [← hpos]
  · simp [hpos]

/-- Words that share no set bit have the same exclusive or as or. -/
theorem xor_eq_or_of_and_eq_zero {x y : Word} (h : x &&& y = 0#64) : x ^^^ y = x ||| y := by
  refine BitVec.eq_of_getLsbD_eq fun i _ => ?_
  have hbit : (x.getLsbD i && y.getLsbD i) = false := by rw [← BitVec.getLsbD_and, h, BitVec.getLsbD_zero]
  rw [BitVec.getLsbD_xor, BitVec.getLsbD_or]
  cases hx : x.getLsbD i <;> simp_all

theorem le_le64 (v : Word) : le (le64 v) = v :=
  word_ext fun o ho => by rw [le_byte _ o (le64_length v).le ho, le64_getD v o ho]

theorem le64_le {bs : List Byte} (h : bs.length = 8) : le64 (le bs) = bs := by
  refine List.ext_getElem ((le64_length _).trans h.symm) fun o ho hbs => ?_
  rw [← List.getD_eq_getElem _ 0 ho, ← List.getD_eq_getElem _ 0 hbs, le64_getD _ o (by omega), le_byte bs o h.le (by omega)]

theorem leFrom_eq_zero {bs : List Byte} (h : ∀ b ∈ bs, b = 0) (k : Nat) : leFrom k bs = 0 := by
  induction bs generalizing k with
  | nil => rfl
  | cons b bs ih =>
    obtain ⟨rfl, hbs⟩ := List.forall_mem_cons.1 h
    simp [leFrom, ih hbs]

theorem le_eq_zero {bs : List Byte} (h : ∀ b ∈ bs, b = 0) : le bs = 0 := leFrom_eq_zero h 0

/-! ## The tail step -/

theorem tailwords_def (t : List Byte) : tailwords t = (le (t.take 8), le (t.drop 8)) := rfl

theorem tailwords_fst_byte (t : List Byte) {o : Nat} (ho : o < 8) :
    (tailwords t).1.extractLsb' (8 * o) 8 = t.getD o 0 := by
  rw [tailwords_def, le_byte _ o (List.length_take_le ..) ho]
  simp only [List.getD, List.getElem?_take_of_lt ho]

theorem tailwords_snd_byte {t : List Byte} (ht : t.length ≤ 15) {o : Nat} (ho : o < 8) :
    (tailwords t).2.extractLsb' (8 * o) 8 = t.getD (8 + o) 0 := by
  rw [tailwords_def, le_byte _ o (by rw [List.length_drop]; omega) ho]
  simp only [List.getD, List.getElem?_drop]

theorem tailwords_snd_of_short {t : List Byte} (ht : t.length ≤ 8) : (tailwords t).2 = 0 := by
  rw [tailwords_def, List.drop_eq_nil_of_le ht, le_nil]

theorem tailwords_eq_zero {t : List Byte} (h : ∀ b ∈ t, b = 0) : tailwords t = (0, 0) := by
  rw [tailwords_def, le_eq_zero fun b hb => h b (List.mem_of_mem_take hb),
    le_eq_zero fun b hb => h b (List.mem_of_mem_drop hb)]

theorem tailmix_eq_xor (h1 h2 : Word) (t : List Byte) :
    tailmix h1 h2 t = (h1 ^^^ mixk1 (tailwords t).1, h2 ^^^ mixk2 (tailwords t).2) := rfl

/-- A tail of zero bytes, the empty one among them, leaves the accumulators (R72). -/
theorem tailmix_of_zero (h1 h2 : Word) {t : List Byte} (h : ∀ b ∈ t, b = 0) : tailmix h1 h2 t = (h1, h2) := by
  rw [tailmix_eq_xor, tailwords_eq_zero h, mixk1_zero, mixk2_zero]
  exact Prod.ext BitVec.xor_zero BitVec.xor_zero

/-- The accumulators FINAL writes are the finalization of the tail step on the pending bytes (R95). -/
theorem finalHash_eq_finalmix_tailmix (s : CoreState) :
    finalHash s = finalmix (tailmix s.h1 s.h2 s.pendingBytes).1 (tailmix s.h1 s.h2 s.pendingBytes).2 s.len := by
  rw [finalHash_def, tailWord1_eq, tailWord2_eq, tailmix_def]

/-! ## The finalization and the digest -/

/-- The cross-add of R74: the second addition uses the sum just written. -/
def crossAdd (h : Word × Word) : Word × Word := (h.1 + h.2, h.2 + (h.1 + h.2))

theorem crossAdd_eq (p q : Word) : crossAdd (p, q) = (p + q, p + 2#64 * q) := by
  rw [crossAdd, BitVec.two_mul, add_left_comm]

theorem finalmix_eq_crossAdd (h1 h2 len : Word) :
    finalmix h1 h2 len = crossAdd (Prod.map fmix64 fmix64 (crossAdd (h1 ^^^ len, h2 ^^^ len))) := rfl

/-- The accumulators side by side, as a number of 128 bits (R75). -/
theorem ofNat_pair (h1 h2 : Word) : BitVec.ofNat 128 (h1.toNat + h2.toNat * 2 ^ 64) = (h2 ++ h1 : Operand) := by
  refine BitVec.eq_of_toNat_eq ?_
  have h1lt := h1.isLt
  have h2lt := h2.isLt
  rw [BitVec.toNat_append, ← Nat.shiftLeft_add_eq_or_of_lt h1lt, Nat.shiftLeft_eq, BitVec.toNat_ofNat]
  omega

/-! ## The mixers can be undone -/

/-- Multiplication by an odd constant loses nothing modulo 2^64. -/
theorem mul_odd_injective {c : Word} (hc : c.toNat % 2 = 1) : Function.Injective (· * c) := by
  intro x y hxy
  have hcoprime : Nat.gcd (2 ^ 64) c.toNat = 1 := (Nat.coprime_two_left.2 (Nat.odd_iff.2 hc)).pow_left 64
  have hmod : x.toNat * c.toNat ≡ y.toNat * c.toNat [MOD 2 ^ 64] := by
    simpa only [Nat.ModEq, BitVec.toNat_mul] using congrArg BitVec.toNat hxy
  exact BitVec.eq_of_toNat_eq ((hmod.cancel_right_of_coprime hcoprime).eq_of_lt_of_lt x.isLt y.isLt)

/-- The step `x XOR (x >> 33)` of the avalanche mix (R73). -/
def xorShift33 (x : Word) : Word := x ^^^ (x >>> 33)

/-- Shifted twice by 33 nothing of a word is left, so the step undoes itself. -/
theorem xorShift33_involutive : Function.Involutive xorShift33 := by
  intro x
  have hgone : x >>> 33 >>> 33 = 0#64 := by
    rw [← BitVec.shiftRight_add]
    exact BitVec.ushiftRight_eq_zero (by decide)
  rw [xorShift33, xorShift33, BitVec.ushiftRight_xor_distrib, hgone, BitVec.xor_zero, BitVec.xor_assoc, BitVec.xor_self,
    BitVec.xor_zero]

theorem fmix64_eq_comp : fmix64 = xorShift33 ∘ (· * constF2) ∘ xorShift33 ∘ (· * constF1) ∘ xorShift33 := rfl

theorem fmix64_injective : Function.Injective fmix64 := by
  have hstep := xorShift33_involutive.injective
  rw [fmix64_eq_comp]
  exact hstep.comp ((mul_odd_injective (by decide)).comp (hstep.comp ((mul_odd_injective (by decide)).comp hstep)))

/-- The form both key mixers have: multiply, rotate, multiply (R68, R69). -/
theorem mul_rotl64_mul_injective {c d : Word} (hc : c.toNat % 2 = 1) (hd : d.toNat % 2 = 1) (n : Nat)
    (hn : 1 ≤ n ∧ n ≤ 63) : Function.Injective fun k => rotl64 (k * c) n hn * d :=
  (mul_odd_injective hd).comp ((rotl64_injective n hn).comp (mul_odd_injective hc))

theorem mixk1_injective : Function.Injective mixk1 := mul_rotl64_mul_injective (by decide) (by decide) 31 (by decide)

theorem mixk2_injective : Function.Injective mixk2 := mul_rotl64_mul_injective (by decide) (by decide) 33 (by decide)

/-! ## The block-mixing step -/

/-- One line of the block-mixing step (R70): XOR in the mixed key, rotate, add the other accumulator, times 5, add the round
constant. -/
def blockLine (key : Word) (n : Nat) (hn : 1 ≤ n ∧ n ≤ 63) (round other h : Word) : Word :=
  (rotl64 (h ^^^ key) n hn + other) * 5 + round

/-- The second line reads what the first has written. -/
theorem blockmix_def (h1 h2 k1 k2 : Word) :
    blockmix h1 h2 k1 k2 = (blockLine (mixk1 k1) 27 (by decide) constN1 h2 h1,
      blockLine (mixk2 k2) 31 (by decide) constN2 (blockLine (mixk1 k1) 27 (by decide) constN1 h2 h1) h2) := rfl

theorem blockLine_injective (key : Word) (n : Nat) (hn : 1 ≤ n ∧ n ≤ 63) (round other : Word) :
    Function.Injective (blockLine key n hn round other) := by
  intro x y hxy
  have hprod := (BitVec.add_left_inj round).1 hxy
  have hsum := mul_odd_injective (c := 5) (by decide) hprod
  have hrot := (BitVec.add_left_inj other).1 hsum
  exact (BitVec.xor_left_inj key).1 (rotl64_injective n hn hrot)

/-- Undone from the second line back: equal results give equal old `h2`, and then equal old `h1`. -/
theorem blockmix_injective (k1 k2 : Word) : Function.Injective fun h : Word × Word => blockmix h.1 h.2 k1 k2 := by
  rintro ⟨h1, h2⟩ ⟨g1, g2⟩ heq
  simp only [blockmix_def, Prod.mk.injEq] at heq
  obtain ⟨hfirst, hsecond⟩ := heq
  rw [hfirst] at hsecond
  obtain rfl := blockLine_injective _ _ _ _ _ hsecond
  obtain rfl := blockLine_injective _ _ _ _ _ hfirst
  rfl

/-! ## The obligations -/

/-- Settles O24: the tail step on the pending zero bytes is the identity. -/
theorem zeroTailLeavesOnlyTheLength : Obligations.ZeroTailLeavesOnlyTheLength := by
  unfold Obligations.ZeroTailLeavesOnlyTheLength
  intro s hready hzero
  refine ⟨_, exec_final_ready s hready, ?_⟩
  rw [answer_toCoreState, finalize_h1, finalize_h2, finalHash_eq_finalmix_tailmix, tailmix_of_zero _ _ hzero]

/-- Settles O49, by the library's rotation. -/
theorem rotationMovesEveryBit : Obligations.RotationMovesEveryBit := by
  unfold Obligations.RotationMovesEveryBit
  exact ⟨fun x n h => ⟨rfl, fun _ hi => rotl64_getLsbD x n h hi⟩, by decide, by decide, by decide⟩

/-- Settles O50: an appended byte is disjoint from those before it, so its sum, or and exclusive or with them agree. -/
theorem byteAssemblyIsInverseToLE64 : Obligations.ByteAssemblyIsInverseToLE64 := by
  unfold Obligations.ByteAssemblyIsInverseToLE64
  refine ⟨le_le64, fun bs hbs => le64_le hbs, fun bs b hbs => ?_, le_nil, by decide⟩
  have hdisjoint := le_and_shiftedByte bs b hbs
  have hor := (le_append_singleton bs b).trans (BitVec.add_eq_or_of_and_eq_zero _ _ hdisjoint)
  exact ⟨hor, hor.trans (xor_eq_or_of_and_eq_zero hdisjoint).symm, le_append_singleton bs b⟩

/-- Settles O52: the top byte of the second word is the place of a sixteenth tail byte, which a tail does not have. -/
theorem tailWordsPlaceEveryByte : Obligations.TailWordsPlaceEveryByte := by
  unfold Obligations.TailWordsPlaceEveryByte
  refine ⟨by decide, by decide, by decide, fun t ht => ⟨fun o ho => tailwords_fst_byte t ho,
    fun o ho => tailwords_snd_byte ht ho, tailwords_snd_of_short, ?_, tailwords_eq_zero (by simp)⟩⟩
  exact (tailwords_snd_byte ht (o := 7) (by decide)).trans (List.getD_eq_default _ _ ht)

/-- Settles O53; the empty tail is a tail of zero bytes. -/
theorem tailMixIsTwoXors : Obligations.TailMixIsTwoXors := by
  unfold Obligations.TailMixIsTwoXors
  exact fun h1 h2 t _ => ⟨tailmix_eq_xor h1 h2 t, tailmix_of_zero h1 h2 (by simp), tailmix_of_zero h1 h2⟩

/-- Settles O54: the same cross-add stands before and after the avalanche mixes. -/
theorem finalMixCrossAddsInSequence : Obligations.FinalMixCrossAddsInSequence := by
  unfold Obligations.FinalMixCrossAddsInSequence
  rintro h1 h2 len p q x y rfl rfl rfl rfl
  rw [finalmix_eq_crossAdd, crossAdd_eq, Prod.map_apply, crossAdd_eq]

/-- Settles O55: the digest read as the lanes of the two accumulators side by side. -/
theorem digestIsLittleEndianH1First : Obligations.DigestIsLittleEndianH1First := by
  unfold Obligations.DigestIsLittleEndianH1First
  refine ⟨fun h1 h2 => ⟨rfl, by simp [digest, le64_length], fun j hj => ?_, fun j hj => ?_, fun j hj => ?_⟩, by decide⟩
  · rw [digest_getElem? h1 h2 j (by omega), BitVec.extractLsb'_append_eq_of_add_le (by omega)]
  · rw [digest_getElem? h1 h2 (8 + j) (by omega), BitVec.extractLsb'_append_eq_of_le (by omega),
      show 8 * (8 + j) - 64 = 8 * j by omega]
  · rw [digest_getElem? h1 h2 j hj, ofNat_pair]

/-- Settles O56: on finitely many words an injective function is a bijection, and every step of the mixers is injective. -/
theorem mixersAreBijections : Obligations.MixersAreBijections := by
  unfold Obligations.MixersAreBijections
  exact ⟨Finite.injective_iff_bijective.1 fmix64_injective, Finite.injective_iff_bijective.1 mixk1_injective,
    Finite.injective_iff_bijective.1 mixk2_injective⟩

/-- Settles O57: the pairs of accumulators are finitely many, and the step is injective on them. -/
theorem blockMixIsABijection : Obligations.BlockMixIsABijection := by
  unfold Obligations.BlockMixIsABijection
  exact fun k1 k2 => Finite.injective_iff_bijective.1 (blockmix_injective k1 k2)

/-- Settles O51: the two lines of the step, and the rule's numbers by evaluation. -/
theorem blockMixAsListed : Obligations.BlockMixAsListed := by
  unfold Obligations.BlockMixAsListed
  refine ⟨?_, by decide, by decide⟩
  rintro h1 h2 k1 k2 a b h1' h2' rfl rfl rfl rfl
  exact blockmix_def h1 h2 k1 k2

end Sys2Proof.Machine

/-! INIT (41_cmd_init.md): the items it writes, and what of the state before is left after it. -/

namespace Sys2Proof.Machine

/-! ## The state INIT leaves -/

/-- INIT writes four items and the response, and nothing else (R80). -/
theorem answer_runInit (s : State) : answer (runInit s.toCoreState) s =
    { s with h1 := seedWord s.seed, h2 := seedWord s.seed, len := 0, phase := .ready,
             port := { s.port with response := some .ok } } := rfl

/-- Of the core before INIT only SEED and the error record are left, and the carry cells, which are then not pending (R81). -/
theorem runInit_congr {s s' : CoreState} (hseed : s'.seed = s.seed) (herr : s'.err = s.err)
    (hecause : s'.ecause = s.ecause) : runInit s' = ({ (runInit s).1 with carry := s'.carry }, .ok) := by
  simp only [runInit, setPhase, setLen, setHash, hseed, herr, hecause]

/-! ## The obligations -/

/-- Settles O12: the word by the decoder, the effect by the state INIT leaves, and the example by the fields of STATUS. -/
theorem initStartsANewMessage : Obligations.InitStartsANewMessage := by
  unfold Obligations.InitStartsANewMessage
  refine ⟨fun c => decode_init_iff, fun s => ⟨_, exec_init s, answer_runInit s, rfl, ?pending, rfl, ?worked⟩⟩
  case pending => exact runInit_pendingBytes s.toCoreState
  case worked =>
    intro hseed herr hecause
    have hword : seedWord s.seed = 0x000000009747b28c#64 := by rw [hseed]; rfl
    exact ⟨hword, hword, status_eq (s := (runInit s.toCoreState).1) (p := .ready) rfl herr hecause⟩

/-- Settles O13: two cores with the same SEED and error record differ after INIT in the carry cells at most, and the message
INIT opens is hashed as `runSteps_message` says from any state. -/
theorem initForgetsEarlierMessages : Obligations.InitForgetsEarlierMessages := by
  unfold Obligations.InitForgetsEarlierMessages
  refine ⟨fun s => ⟨_, exec_init s, rfl, ?dout, rfl, rfl, rfl, ?forgets⟩, ?digest⟩
  case dout => exact dout_not_done _ (by simp)
  case forgets =>
    intro s' hseed herr hecause hport
    rw [exec_init, runInit_congr hseed herr hecause, answer, hport]
    rfl
  case digest => exact fun s d1 d2 cs rest hcs hpending => runSteps_message cs hcs hpending

end Sys2Proof.Machine

/-! UPDATE (42_cmd_update.md): its checks, the bytes it absorbs, what it leaves unchanged, and that the cut of a byte string into
UPDATEs does not matter. -/

namespace Sys2Proof.Machine

/-! ## The checks -/

theorem exec_update_rejected_count (s : State) {nb : Nat} (din : Operand) (h : 16 < nb) :
    exec (.update nb din) s = .next (rejected .count s) := by
  rw [exec_update_count nb din s h, answer_raiseCause]

theorem exec_update_rejected_phase (s : State) {nb : Nat} (din : Operand) {c : Cause} (h : nb ≤ 16)
    (hc : phaseCause s.phase = some c) : exec (.update nb din) s = .next (rejected c s) := by
  rw [exec_update_phase nb din s h hc, answer_raiseCause]

/-- Absorbing the byte string of an UPDATE is absorbing its lanes in ascending order (R85). -/
theorem absorbAll_operandBytes (s : CoreState) (din : Operand) (nb : Nat) :
    absorbAll s (operandBytes din nb) = (List.range nb).foldl (fun v i => absorb v (lane din i)) s :=
  List.foldl_map

/-! ## What absorbing leaves unchanged -/

/-- A core that kept SEED, PHASE and the error record differs in the four other items at most. -/
theorem eq_with_hash_len_carry {s t : CoreState} (hseed : t.seed = s.seed) (hphase : t.phase = s.phase)
    (herr : t.err = s.err) (hecause : t.ecause = s.ecause) :
    t = { s with h1 := t.h1, h2 := t.h2, len := t.len, carry := t.carry } := by
  rw [← hseed, ← hphase, ← herr, ← hecause]

theorem absorb_frame (s : CoreState) (b : Byte) :
    absorb s b = { s with h1 := (absorb s b).h1, h2 := (absorb s b).h2, len := (absorb s b).len,
                          carry := (absorb s b).carry } :=
  eq_with_hash_len_carry (absorb_seed s b) (absorb_phase s b) (absorb_err s b) (absorb_ecause s b)

theorem absorbAll_frame (s : CoreState) (bs : List Byte) :
    absorbAll s bs = { s with h1 := (absorbAll s bs).h1, h2 := (absorbAll s bs).h2, len := (absorbAll s bs).len,
                              carry := (absorbAll s bs).carry } :=
  eq_with_hash_len_carry (absorbAll_seed s bs) (absorbAll_phase s bs) (absorbAll_err s bs) (absorbAll_ecause s bs)

/-- The block the 16th byte completes is read from the cells, which then hold all 16 bytes (R86). -/
theorem hash_absorb_full_cells (s : CoreState) (b : Byte) (h : s.cnt = 15) :
    ((absorb s b).h1, (absorb s b).h2) =
      blockmix s.h1 s.h2 (le ((absorb s b).cells 0 8)) (le ((absorb s b).cells 8 8)) := by
  have hcells (a n : Nat) : (absorb s b).cells a n = (storeByte s b).cells a n :=
    cells_congr fun i _ => by rw [cell_absorb, cell_storeByte]
  rw [hcells, hcells, absorb, if_pos h, mixCarry]
  simp [CoreState.memRead]

/-! ## SEED is not read -/

/-- The core with another SEED. -/
def setSeed (v : Seed) (s : CoreState) : CoreState := { s with seed := v }

theorem recordCause_setSeed (v : Seed) (c : Cause) (s : CoreState) :
    recordCause c (setSeed v s) = setSeed v (recordCause c s) := by
  rw [recordCause_eq, recordCause_eq]; rfl

theorem absorb_setSeed (v : Seed) (s : CoreState) (b : Byte) : absorb (setSeed v s) b = setSeed v (absorb s b) := by
  by_cases h : s.cnt = 15
  · have h' : (setSeed v s).cnt = 15 := h
    rw [absorb, absorb, if_pos h, if_pos h']; rfl
  · have h' : (setSeed v s).cnt ≠ 15 := h
    rw [absorb, absorb, if_neg h, if_neg h']; rfl

theorem absorbAll_setSeed (v : Seed) (s : CoreState) (bs : List Byte) :
    absorbAll (setSeed v s) bs = setSeed v (absorbAll s bs) := by
  induction bs generalizing s with
  | nil => rfl
  | cons b bs ih => rw [absorbAll_cons, absorbAll_cons, absorb_setSeed, ih]

theorem runUpdate_setSeed (v : Seed) (nb : Nat) (din : Operand) (s : CoreState) :
    runUpdate nb din (setSeed v s) = (setSeed v (runUpdate nb din s).1, (runUpdate nb din s).2) := by
  have hphase : (setSeed v s).phase = s.phase := rfl
  unfold runUpdate
  rw [hphase]
  split
  · exact congrArg (·, _) (recordCause_setSeed v _ s)
  · split
    · exact congrArg (·, _) (recordCause_setSeed v _ s)
    · exact congrArg (·, _) (absorbAll_setSeed v s _)

/-! ## What UPDATE can do -/

/-- Everything UPDATE can do to the core: a rejection, or its bytes absorbed. -/
theorem runUpdate_cases (nb : Nat) (din : Operand) (s : CoreState) :
    (∃ c, runUpdate nb din s = raiseCause c s) ∨
    (nb ≤ 16 ∧ s.phase = .ready ∧ runUpdate nb din s = (absorbAll s (operandBytes din nb), .ok)) := by
  rcases Nat.lt_or_ge 16 nb with hcount | hnb
  · exact .inl ⟨.count, runUpdate_count nb din s hcount⟩
  · cases hc : phaseCause s.phase with
    | some c => exact .inl ⟨c, runUpdate_phase nb din s hnb hc⟩
    | none =>
      have hready := phaseCause_eq_none hc
      exact .inr ⟨hnb, hready, runUpdate_ready nb din s hnb hready⟩

theorem runUpdate_phase_eq (nb : Nat) (din : Operand) (s : CoreState) : (runUpdate nb din s).1.phase = s.phase := by
  obtain ⟨c, hs⟩ | ⟨-, -, hs⟩ := runUpdate_cases nb din s <;> rw [hs]
  · exact recordCause_phase c s
  · exact absorbAll_phase s _

/-- No UPDATE answers a digest (R91). -/
theorem runUpdate_response_ne_okDigest (nb : Nat) (din : Operand) (s : CoreState) (d : List Byte) :
    (runUpdate nb din s).2 ≠ .okDigest d := by
  obtain ⟨c, hs⟩ | ⟨-, -, hs⟩ := runUpdate_cases nb din s <;> rw [hs] <;> simp

/-- UPDATE mixes nothing into the accumulators before a block is complete (R91). -/
theorem runUpdate_hash_of_no_block {nb : Nat} (din : Operand) {s : CoreState} (h : s.cnt + nb < 16) :
    (runUpdate nb din s).1.h1 = s.h1 ∧ (runUpdate nb din s).1.h2 = s.h2 := by
  obtain ⟨c, hs⟩ | ⟨-, -, hs⟩ := runUpdate_cases nb din s <;> rw [hs]
  · exact ⟨recordCause_h1 c s, recordCause_h2 c s⟩
  · obtain ⟨-, hhash⟩ := absorbAll_short s (operandBytes din nb) (by rw [operandBytes_length]; omega)
    exact hhash

/-! ## Sequences of UPDATEs -/

theorem execList_cons {i : Instr} {s t : State} (h : exec i s = .next t) (is : List Instr) :
    execList (i :: is) s = execList is t := by
  rw [execList, h]

/-- UPDATEs of legal counts, from READY, absorb their byte strings one after another, which is to absorb the whole string. -/
theorem execList_updates {s : State} {xs : List (Nat × Operand)} (hp : s.phase = .ready) (hxs : ∀ x ∈ xs, x.1 ≤ 16) :
    ∃ t, execList (xs.map fun x => .update x.1 x.2) s = .next t ∧
      t.toCoreState = absorbAll s.toCoreState (xs.flatMap fun x => operandBytes x.2 x.1) := by
  induction xs generalizing s with
  | nil => exact ⟨s, rfl, rfl⟩
  | cons x xs ih =>
    obtain ⟨hx, hxs⟩ := List.forall_mem_cons.1 hxs
    have hexec := exec_update_ready x.1 x.2 s hx hp
    obtain ⟨t, hrun, hcore⟩ := ih
      (s := answer (absorbAll s.toCoreState (operandBytes x.2 x.1), .ok) s) ((absorbAll_phase _ _).trans hp) hxs
    refine ⟨t, (execList_cons hexec _).trans hrun, ?_⟩
    rw [hcore, List.flatMap_cons, absorbAll_append, answer_toCoreState]

/-! ## The obligations -/

/-- Settles O14: one equation for each check, and the bytes of an accepted UPDATE are its lanes. -/
theorem updateAbsorbsItsLanesInOrder : Obligations.UpdateAbsorbsItsLanesInOrder := by
  unfold Obligations.UpdateAbsorbsItsLanesInOrder
  refine fun s nb din => ⟨exec_update_rejected_count s din, fun hnb hp => ?uninit, fun hnb hp => ?finalized,
    fun hnb hready => ⟨_, absorbAll_operandBytes s.toCoreState din nb, exec_update_ready nb din s hnb hready⟩⟩
  case uninit => exact exec_update_rejected_phase s din hnb (congrArg phaseCause hp)
  case finalized => exact exec_update_rejected_phase s din hnb (congrArg phaseCause hp)

/-- Settles O15: a read after the write to cell CNT, the length counter, and the two cases of the fill level. -/
theorem absorbedByteGoesToTheFillLevel : Obligations.AbsorbedByteGoesToTheFillLevel := by
  unfold Obligations.AbsorbedByteGoesToTheFillLevel
  refine fun s b => ⟨_, rfl, ?stored, ?others, absorb_len s b, cnt_absorb s b, hash_absorb s b,
    hash_absorb_full_cells s b, absorb_frame s b⟩
  case stored => rw [cell_absorb, if_pos rfl]
  case others => exact fun a ha => by rw [cell_absorb, if_neg ha]

/-- Settles O17, by whether the bytes in hand reach a block; the invariant of R20 by `absorbed_absorbAll`. -/
theorem updateMixesOneBlockAndKeepsTheRest : Obligations.UpdateMixesOneBlockAndKeepsTheRest := by
  unfold Obligations.UpdateMixesOneBlockAndKeepsTheRest
  intro s nb din hready hnb
  have hlength := operandBytes_length din nb
  refine ⟨_, _, exec_update_ready nb din s hnb hready, rfl, ?length, ?block, ?noBlock, ?frame, ?message⟩
  case length => rw [answer_toCoreState, absorbAll_len, hlength]
  case block =>
    intro hge
    obtain ⟨hpending, hmix⟩ := absorbAll_long s.toCoreState (operandBytes din nb) (by rwa [hlength]) (by rwa [hlength])
    exact ⟨hmix, hpending⟩
  case noBlock =>
    intro hlt
    obtain ⟨hpending, hh1, hh2⟩ := absorbAll_short s.toCoreState (operandBytes din nb) (by omega)
    exact ⟨hh1, hh2, hpending⟩
  case frame =>
    exact congrArg (fun u => answer (u, .ok) s) (absorbAll_frame s.toCoreState (operandBytes din nb))
  case message => exact fun msg habs => absorbed_absorbAll habs (by rwa [hlength])

/-- Settles O20: neither a rejection nor the absorbing of bytes answers a digest, writes PHASE or reads SEED. -/
theorem updateNeverFinishesAMessage : Obligations.UpdateNeverFinishesAMessage := by
  unfold Obligations.UpdateNeverFinishesAMessage
  refine fun s nb din => ⟨_, exec_update nb din s, fun d => ?digest, runUpdate_phase_eq nb din _,
    runUpdate_hash_of_no_block din, fun v => ?seed⟩
  case digest =>
    rw [answer_port_response]
    exact fun h => runUpdate_response_ne_okDigest nb din _ d (Option.some.inj h)
  case seed => exact congrArg (fun r => Host.Outcome.next (answer r s)) (runUpdate_setSeed v nb din s.toCoreState)

/-- Settles O21: both sequences absorb the same string, so they leave the same core, of which FINAL's response is a function. -/
theorem incrementalEquivalence : Obligations.IncrementalEquivalence := by
  unfold Obligations.IncrementalEquivalence
  intro s xs ys hready hxs hys hbytes
  obtain ⟨t, hruns, ht⟩ := execList_updates hready hxs
  obtain ⟨u, hrunu, hu⟩ := execList_updates hready hys
  have hcore : t.toCoreState = u.toCoreState := by rw [ht, hu, hbytes]
  refine ⟨t, u, _, _, hruns, hrunu, ?_, ?_, ?_, ?_, ?_, exec_final t, exec_final u, ?_⟩ <;> simp [hcore]

/-- Settles O16: no lane is absorbed, and the phase check is that of any other UPDATE. -/
theorem updateOfNoBytesChangesNothing : Obligations.UpdateOfNoBytesChangesNothing := by
  unfold Obligations.UpdateOfNoBytesChangesNothing
  have hnb : 0 ≤ 16 := Nat.zero_le 16
  exact fun s din => ⟨exec_update_ready 0 din s hnb,
    fun hp => exec_update_rejected_phase s din hnb (congrArg phaseCause hp),
    fun hp => exec_update_rejected_phase s din hnb (congrArg phaseCause hp)⟩

end Sys2Proof.Machine

/-! FINAL (43_cmd_final.md): its checks, the tail it folds in, the digest it leaves, and the digest of a whole message from reset. -/

namespace Sys2Proof.Machine

/-! ## The checks and the effect -/

theorem exec_final_rejected_phase (s : State) {c : Cause} (hc : phaseCause s.phase = some c) :
    exec .final s = .next (rejected c s) := by
  rw [exec_final_phase s hc, answer_raiseCause]

/-- FINAL in READY writes H1, H2, PHASE and the response, and nothing else (R95). -/
theorem answer_finalize (s : State) : answer (finalize s.toCoreState) s =
    { s with h1 := (finalHash s.toCoreState).1, h2 := (finalHash s.toCoreState).2, phase := .done,
             port := { s.port with response := some (.okDigest
               (digest (finalHash s.toCoreState).1 (finalHash s.toCoreState).2)) } } := by
  rw [answer, finalize, setPhase, setHash]

/-! ## The tail words -/

theorem tailWord1_eq_tailwords (s : CoreState) : tailWord1 s = (tailwords s.pendingBytes).1 := tailWord1_eq s

theorem tailWord2_eq_tailwords (s : CoreState) : tailWord2 s = (tailwords s.pendingBytes).2 := tailWord2_eq s

/-- A word is the first tail word when its bytes are the pending cells 0 to 7, and zero where no cell is pending. -/
theorem eq_tailWord1 {s : CoreState} {k : Word}
    (h : ∀ o < 8, k.extractLsb' (8 * o) 8 = if o < s.cnt then s.cell o else 0) : k = tailWord1 s := by
  refine word_ext fun o ho => ?_
  rw [h o ho, tailWord1_eq_tailwords, tailwords_fst_byte _ ho, pendingBytes_getD]

/-- The same for the second tail word and the cells from 8 up. -/
theorem eq_tailWord2 {s : CoreState} {k : Word}
    (h : ∀ o < 8, k.extractLsb' (8 * o) 8 = if 8 + o < s.cnt then s.cell (8 + o) else 0) : k = tailWord2 s := by
  have hlen : s.pendingBytes.length ≤ 15 := by rw [pendingBytes_length]; exact Nat.le_of_lt_succ s.cnt_lt
  refine word_ext fun o ho => ?_
  rw [h o ho, tailWord2_eq_tailwords, tailwords_snd_byte hlen ho, pendingBytes_getD]

/-- With at most 8 bytes pending the tail step leaves H2 (R96). -/
theorem finalHash_of_cnt_le {s : CoreState} (h : s.cnt ≤ 8) :
    finalHash s = finalmix (s.h1 ^^^ mixk1 (tailWord1 s)) s.h2 s.len := by
  have hxor : s.h2 ^^^ (0 : Word) = s.h2 := BitVec.xor_zero
  rw [finalHash_def, tailWord2_eq_tailwords, tailwords_snd_of_short (by rwa [pendingBytes_length]), mixk2_zero, hxor]

/-- With no byte pending the tail step leaves both accumulators (R96). -/
theorem finalHash_of_cnt_zero {s : CoreState} (h : s.cnt = 0) : finalHash s = finalmix s.h1 s.h2 s.len := by
  rw [finalHash_eq_finalmix_tailmix, pendingBytes_of_cnt_zero h, tailmix_of_zero _ _ (by simp)]

/-! ## Runs of commands -/

/-- Commands write neither SEED nor what the host has yet to send after them, whether they are accepted or not. -/
theorem runSteps_commands (cs : List Command) {s : State} {rest : List HostEvent}
    (h : s.port.pending = cs.map HostEvent.command ++ rest) :
    ∃ t, runSteps cs.length s = .next t ∧ t.seed = s.seed ∧ t.port.pending = rest := by
  induction cs generalizing s with
  | nil => exact ⟨s, rfl, rfl, h⟩
  | cons c cs ih =>
    have hs := step_eq_answer_coreStep s c _ h
    obtain ⟨t, hrun, hseed, hpending⟩ := ih (s := answer (coreStep s.toCoreState c) (takeEvent _ s)) rfl
    exact ⟨t, (runSteps_succ hs _).trans hrun, hseed.trans (coreStep_seed _ c), hpending⟩

/-! ## The obligations -/

/-- Settles O22: the word by the decoder, the checks by the phase, and the effect by the state FINAL leaves, whose accumulators
are the finalization of the tail step; the example by evaluation. -/
theorem finalProducesTheDigest : Obligations.FinalProducesTheDigest := by
  unfold Obligations.FinalProducesTheDigest
  refine ⟨fun c => decode_final_iff, fun s => ⟨fun hp => ?uninit, fun hp => ?done, fun hp => ?ready⟩, ?worked⟩
  case uninit => exact exec_final_rejected_phase s (congrArg phaseCause hp)
  case done => exact exec_final_rejected_phase s (congrArg phaseCause hp)
  case ready =>
    refine ⟨_, _, rfl, rfl, ?_⟩
    rw [exec_final_ready s hp, answer_finalize, finalHash_eq_finalmix_tailmix]
  case worked =>
    intro s hp hh1 hh2 hlen hbytes
    have hhash : finalHash s.toCoreState = (0xcbd8a7b341bd9b02#64, 0x5b1e906a48ae1d19#64) := by
      rw [finalHash_eq_finalmix_tailmix, hh1, hh2, hlen, hbytes]; decide
    have hdigest : digest 0xcbd8a7b341bd9b02#64 0x5b1e906a48ae1d19#64 =
        [0x02, 0x9b, 0xbd, 0x41, 0xb3, 0xa7, 0xd8, 0xcb, 0x19, 0x1d, 0xae, 0x48, 0x6a, 0x90, 0x1e, 0x5b] := by decide
    refine ⟨_, exec_final_ready s hp, ?_⟩
    rw [answer_finalize, hhash, hdigest]
    exact ⟨rfl, rfl, rfl⟩

/-- Settles O23: the two words are the tail words of FINAL, byte by byte, and the short tails are special cases. -/
theorem finalFoldsOnlyThePendingCells : Obligations.FinalFoldsOnlyThePendingCells := by
  unfold Obligations.FinalFoldsOnlyThePendingCells
  intro s k1 k2 hp hk1 hk2
  obtain rfl := eq_tailWord1 hk1
  obtain rfl := eq_tailWord2 hk2
  exact ⟨_, exec_final_ready s hp, finalHash_def s.toCoreState, finalHash_of_cnt_le, finalHash_of_cnt_zero⟩

/-- Settles O25: the items FINAL does not write, and the phase check of the commands that follow it. -/
theorem stateAfterAnAcceptedFinal : Obligations.StateAfterAnAcceptedFinal := by
  unfold Obligations.StateAfterAnAcceptedFinal
  intro s hp
  refine ⟨_, exec_final_ready s hp, finalize_phase _, rfl, finalize_len _, finalize_carry _, finalize_seed _,
    finalize_err _, finalize_ecause _, ?final, fun nb din hnb => ?update⟩
  case final => exact exec_final_rejected_phase _ (congrArg phaseCause (finalize_phase _))
  case update => exact exec_update_rejected_phase _ din hnb (congrArg phaseCause (finalize_phase _))

/-- Settles O26: 8 bytes of each accumulator, and DOUT in DONE as `doutShowsTheDigestOnlyWhenDone` has it. -/
theorem digestStandsOnDout : Obligations.DigestStandsOnDout := by
  unfold Obligations.DigestStandsOnDout
  intro s hp
  refine ⟨_, _, exec_final_ready s hp, finalize_phase _, rfl, rfl, ?length, fun u hdone hu1 hu2 => ?dout⟩
  case length => rw [digest, List.length_append, le64_length, le64_length]
  case dout =>
    obtain ⟨hshown, -⟩ := doutShowsTheDigestOnlyWhenDone u
    obtain ⟨hlow, hhigh, hlanes⟩ := hshown hdone
    rw [hu1, hu2] at hlanes
    exact ⟨hlow.trans hu1, hhigh.trans hu2, hlanes⟩

/-- Settles O44: the reset loads SEED, which the commands before INIT keep, and from INIT on it is `runSteps_message`. -/
theorem wholeMessageDigest : Obligations.WholeMessageDigest := by
  unfold Obligations.WholeMessageDigest
  intro s v pre cs d1 d2 rest _ hcs hpending
  have hreset := step_resetEvent s v _ hpending
  obtain ⟨t, hpre, hseed, hinit⟩ := runSteps_commands pre (s := applyReset v (takeEvent _ s)) rfl
  obtain ⟨u, hmessage, hdone, hrest, hresponse⟩ := runSteps_message cs hcs hinit
  refine ⟨u, ?run, hdone, hrest, ?response⟩
  case run =>
    calc runSteps (pre.length + cs.length + 3) s
        = runSteps (pre.length + (cs.length + 2)) (applyReset v (takeEvent _ s)) := runSteps_succ hreset _
      _ = runSteps (cs.length + 2) t := runSteps_add hpre _
      _ = .next u := hmessage
  case response => rw [hresponse, hseed, applyReset_toCoreState, reset_seed]

end Sys2Proof.Machine

/-! Exceptions (60_exceptions.md): the one exception entry and what it leaves, the order of the causes, the phase transition table,
and several cores side by side. -/

namespace Sys2Proof.Machine

/-! ## A rejected command -/

/-- A command with a cause is rejected with that cause (R115, R116). -/
theorem step_rejected {s : State} {cmd : Command} {rest : List HostEvent} {c : Cause}
    (h : s.port.pending = .command cmd :: rest) (hc : causeOf cmd.cw s.phase = some c) :
    step s = .next (rejected c (takeEvent rest s)) := by
  rw [step_eq_answer_coreStep s cmd rest h, coreStep_of_causeOf hc, ← answer_raiseCause, takeEvent_toCoreState]

/-- ERR(c) is answered only when the decision procedure of R115 reports `c`. -/
theorem causeOf_of_coreStep_err {s : CoreState} {cmd : Command} {c : Cause} (h : (coreStep s cmd).2 = .err c) :
    causeOf cmd.cw s.phase = some c := by
  obtain ⟨c', hc, hs⟩ | ⟨-, ⟨-, hs⟩ | ⟨nb, -, hs⟩ | ⟨-, hs⟩⟩ := coreStep_cases s cmd <;> rw [hs] at h <;> cases h
  exact hc

/-- A command without a cause is answered OK or with a digest. -/
theorem coreStep_response_accepted {s : CoreState} {cmd : Command} (h : causeOf cmd.cw s.phase = none) :
    (coreStep s cmd).2 = .ok ∨ ∃ d, (coreStep s cmd).2 = .okDigest d := by
  cases hr : (coreStep s cmd).2 with
  | ok => exact .inl rfl
  | okDigest d => exact .inr ⟨d, rfl⟩
  | err c => rw [causeOf_of_coreStep_err hr] at h; cases h

/-- DOUT does not read the error record or the response. -/
theorem rejected_dout (c : Cause) (s : State) : (rejected c s).dout = s.dout := rfl

/-- What a cell of the transition table says of a rejection: the cause answered, the phase kept. -/
theorem coreStep_raised {s : CoreState} {cmd : Command} {c : Cause} (h : coreStep s cmd = raiseCause c s) :
    (coreStep s cmd).2 = .err c ∧ (coreStep s cmd).1.phase = s.phase := by
  rw [h]; exact ⟨rfl, recordCause_phase c s⟩

/-- The cells of a command that makes the phase check, in the two phases that fail it (R113, R114). -/
theorem coreStep_phaseChecked {s : CoreState} {cmd : Command}
    (h : ∀ c, phaseCause s.phase = some c → coreStep s cmd = raiseCause c s) :
    (s.phase = .uninit → (coreStep s cmd).2 = .err .uninit ∧ (coreStep s cmd).1.phase = .uninit) ∧
    (s.phase = .done → (coreStep s cmd).2 = .err .finalized ∧ (coreStep s cmd).1.phase = .done) := by
  constructor <;> intro hp <;> rw [← hp] <;> exact coreStep_raised (h _ (congrArg phaseCause hp))

/-! ## The command an unreserved word decodes to -/

/-- Of an unreserved word the `op` field names the command (R46, R50). -/
theorem decode_of_op {c : Command} (h : ¬ wordIsReserved c.cw) :
    (c.cw.extractLsb' 0 2 = 0b01#2 → decode c = .instr .init) ∧
    (c.cw.extractLsb' 0 2 = 0b10#2 → decode c = .instr (.update (c.cw.extractLsb' 2 5).toNat c.din)) ∧
    (c.cw.extractLsb' 0 2 = 0b11#2 → decode c = .instr .final) := by
  obtain ⟨hd, hw⟩ | ⟨hd, hw⟩ | ⟨nb, hd, hnb, hw⟩ | ⟨r, hd, hr⟩ := decode_cases c.cw c.din
  · rw [hd, hw]; simp
  · rw [hd, hw]; simp
  · obtain ⟨-, -, hop, hfield, -⟩ := updateWord_fields ⟨nb, hnb⟩
    rw [hd, hw, hop, hfield]; simp
  · exact absurd hr h

theorem not_wordIsReserved_of_causeOf_none {w : CommandWord} {p : Phase} (h : causeOf w p = none) :
    ¬ wordIsReserved w := by
  intro hr
  rw [causeOf_reserved w p hr] at h; cases h

/-! ## Several cores -/

/-- From `cores` to `r` each core has gone to the state it reaches alone in as many steps as `order` names it. -/
def EachRunsAlone (order : List Nat) (cores r : List State) : Prop :=
  r.length = cores.length ∧
    ∀ (k : Nat) (s : State), cores[k]? = some s → ∃ t, runSteps (order.count k) s = .next t ∧ r[k]? = some t

theorem EachRunsAlone.nil (cores : List State) : EachRunsAlone [] cores cores :=
  ⟨rfl, fun _ s hs => ⟨s, rfl, hs⟩⟩

theorem EachRunsAlone.append {ks js : List Nat} {cores mid r : List State} (h : EachRunsAlone ks cores mid)
    (h' : EachRunsAlone js mid r) : EachRunsAlone (ks ++ js) cores r := by
  obtain ⟨hlen, hrun⟩ := h
  obtain ⟨hlen', hrun'⟩ := h'
  refine ⟨hlen'.trans hlen, fun k s hs => ?_⟩
  obtain ⟨t, hst, ht⟩ := hrun k s hs
  obtain ⟨u, htu, hu⟩ := hrun' k t ht
  refine ⟨u, ?_, hu⟩
  rw [List.count_append, runSteps_add hst, htu]

theorem stepInstance_of_none {k : Nat} {cores : List State} (hk : cores[k]? = none) :
    stepInstance k cores = .next cores := by
  rw [stepInstance, hk]

theorem stepInstance_of_some {k : Nat} {cores : List State} {s t : State} (hk : cores[k]? = some s)
    (hstep : step s = .next t) : stepInstance k cores = .next (cores.set k t) := by
  simp only [stepInstance, hk, hstep]

/-- A step of core `k` is a step of that core alone, and of no other; it always completes. -/
theorem stepInstance_eachRunsAlone (k : Nat) (cores : List State) :
    ∃ r, stepInstance k cores = .next r ∧ EachRunsAlone [k] cores r := by
  cases hk : cores[k]? with
  | none =>
    refine ⟨cores, stepInstance_of_none hk, rfl, fun j s hs => ⟨s, ?_, hs⟩⟩
    have hne : k ≠ j := by rintro rfl; rw [hk] at hs; cases hs
    rw [List.count_singleton, if_neg (by simpa using hne)]; rfl
  | some s =>
    obtain ⟨t, hstep, -⟩ := everyEventIsAnsweredInItsStep s
    refine ⟨_, stepInstance_of_some hk hstep, List.length_set, fun j u hu => ?_⟩
    by_cases hkj : k = j
    · subst hkj
      obtain rfl := Option.some.inj (hk.symm.trans hu)
      obtain ⟨hlt, -⟩ := List.getElem?_eq_some_iff.1 hk
      refine ⟨t, ?_, List.getElem?_set_self hlt⟩
      rw [List.count_singleton_self, runSteps_succ hstep]; rfl
    · refine ⟨u, ?_, (List.getElem?_set_ne hkj).trans hu⟩
      rw [List.count_singleton, if_neg (by simpa using hkj)]; rfl

/-! ## The obligations -/

/-- Settles O30: ERR(c) is answered by a rejection only, and a rejection is `rejected`. -/
theorem rejectedCommandChangesOnlyTheErrorRecord : Obligations.RejectedCommandChangesOnlyTheErrorRecord := by
  unfold Obligations.RejectedCommandChangesOnlyTheErrorRecord
  intro s t cmd rest c h hstep hresponse
  have hanswer := Host.Outcome.next.inj (hstep.symm.trans (step_eq_answer_coreStep s cmd rest h))
  have hc : causeOf cmd.cw s.phase = some c := causeOf_of_coreStep_err (by simpa [hanswer] using hresponse)
  obtain rfl := Host.Outcome.next.inj (hstep.symm.trans (step_rejected h hc))
  exact ⟨rfl, rfl, rfl, rfl, rfl, rfl, fun he => ⟨rfl, if_neg (by simp [he])⟩, fun he => ⟨rfl, if_pos he⟩⟩

/-- Settles O31: a cause is a rejection, and a word without one is unreserved, so its `op` field names the command. -/
theorem causesAreReportedInPriorityOrder : Obligations.CausesAreReportedInPriorityOrder := by
  unfold Obligations.CausesAreReportedInPriorityOrder
  intro s cmd rest h
  refine ⟨fun c hc => step_rejected h hc, fun hn => ?_⟩
  obtain ⟨hinit, hupdate, hfinal⟩ := decode_of_op (not_wordIsReserved_of_causeOf_none hn)
  refine ⟨fun hop => step_instr s cmd rest _ h (hinit hop), fun hop => step_instr s cmd rest _ h (hupdate hop),
    fun hop => step_instr s cmd rest _ h (hfinal hop), _, step_eq_answer_coreStep s cmd rest h, ?_⟩
  simpa using coreStep_response_accepted hn

/-- Settles O32: a rejection keeps the phase and the accumulators, which are all that DOUT reads in DONE. -/
theorem rejectedCommandKeepsTheOldDigest : Obligations.RejectedCommandKeepsTheOldDigest := by
  unfold Obligations.RejectedCommandKeepsTheOldDigest
  intro s cmd rest c h hc
  obtain ⟨hone, hfour⟩ := causeCode_range c
  refine ⟨_, step_rejected h hc, rfl, rfl, hone, hfour, fun hdone => ?done, fun hnot => dout_not_done _ hnot⟩
  case done => rw [rejected_dout, dout_done s hdone, dout_done (takeEvent rest s) hdone]; rfl

/-- Settles O33, by the command decoded: a check that fails is a rejection, which keeps the phase; of the accepted commands INIT
and FINAL write it. -/
theorem phaseTransitionTable : Obligations.PhaseTransitionTable := by
  unfold Obligations.PhaseTransitionTable
  intro s cmd rest h
  refine ⟨_, _, step_eq_answer_coreStep s cmd rest h, rfl, ?init, ?update, ?count, ?final, ?reserved, ?reset⟩
  case init => intro hd; rw [coreStep_init hd]; exact ⟨rfl, rfl⟩
  case update =>
    intro nb din hd hnb
    obtain ⟨huninit, hdone⟩ := coreStep_phaseChecked fun c hc =>
      (coreStep_update hd).trans (runUpdate_phase nb din s.toCoreState hnb hc)
    refine ⟨huninit, fun hp => ?_, hdone⟩
    rw [coreStep_update hd, runUpdate_ready nb din _ hnb hp]
    exact ⟨rfl, (absorbAll_phase _ _).trans hp⟩
  case count =>
    intro nb din hd hnb
    exact coreStep_raised ((coreStep_update hd).trans (runUpdate_count nb din _ hnb))
  case final =>
    intro hd
    obtain ⟨huninit, hdone⟩ := coreStep_phaseChecked fun c hc =>
      (coreStep_final hd).trans (runFinal_phase s.toCoreState hc)
    refine ⟨huninit, fun hp => ?_, hdone⟩
    rw [coreStep_final hd, runFinal_ready _ hp]
    exact ⟨⟨_, rfl⟩, finalize_phase _⟩
  case reserved => exact fun w hd => coreStep_raised (coreStep_reserved _ cmd w hd)
  case reset => exact fun u v rest' hu => ⟨_, step_resetEvent u v rest' hu, rfl⟩

/-- Settles O46, by induction on the order: the first step, then the run from the cores it leaves. -/
theorem instancesAreIndependent : Obligations.InstancesAreIndependent := by
  unfold Obligations.InstancesAreIndependent
  intro order
  induction order with
  | nil => exact fun cores => ⟨cores, rfl, EachRunsAlone.nil cores⟩
  | cons k ks ih =>
    intro cores
    obtain ⟨mid, hstep, hfirst⟩ := stepInstance_eachRunsAlone k cores
    obtain ⟨r, hrun, hrest⟩ := ih mid
    refine ⟨r, ?_, hfirst.append hrest⟩
    rw [runInstances, hstep]; exact hrun

/-- Settles O27: the count check comes first, so no other check and no byte is reached. -/
theorem countAboveSixteenIsRejected : Obligations.CountAboveSixteenIsRejected := by
  unfold Obligations.CountAboveSixteenIsRejected
  intro s nb din hnb
  exact ⟨_, exec_update_rejected_count s din hnb, rfl, rfl, rfl, rfl, rfl, rfl, rfl, rfl⟩

/-- Settles O28: the phase check of UPDATE and of FINAL; INIT has none. -/
theorem beforeInitOnlyInitIsAccepted : Obligations.BeforeInitOnlyInitIsAccepted := by
  unfold Obligations.BeforeInitOnlyInitIsAccepted
  refine ⟨rfl, fun s hp => ?_⟩
  have hcause : phaseCause s.phase = some .uninit := congrArg phaseCause hp
  exact ⟨fun nb din hnb => exec_update_rejected_phase s din hnb hcause, exec_final_rejected_phase s hcause,
    _, exec_init s, rfl, rfl⟩

/-- Settles O29: the phase check of UPDATE and of FINAL, and the outputs after a rejection. -/
theorem afterFinalUpdateAndFinalAreRejected : Obligations.AfterFinalUpdateAndFinalAreRejected := by
  unfold Obligations.AfterFinalUpdateAndFinalAreRejected
  refine ⟨rfl, fun s i hp hi => ⟨?_, rejected_dout .finalized s, rfl⟩⟩
  have hcause : phaseCause s.phase = some .finalized := congrArg phaseCause hp
  obtain rfl | ⟨nb, din, hnb, rfl⟩ := hi
  · exact exec_final_rejected_phase s hcause
  · exact exec_update_rejected_phase s din hnb hcause

end Sys2Proof.Machine
